-- ==== Sys2Proof/Word.lean ====
section
/-! DEFINITION. The word types of FBS64 (spec/00_scope.md section 6): bytes, command words, the 64-bit frame word.
All values are unsigned; bit 0 is the least significant bit. -/

namespace Sys2Proof

/-- One frame byte, or the OP or ARG field of a command word (R11, R70). -/
abbrev Byte := BitVec 8

/-- One 16-bit command word (R70). -/
abbrev CmdWord := BitVec 16

/-- A 64-bit value: the word view of the frame, the chain SR, the latch OUT (R12, R27, R28). -/
abbrev Word64 := BitVec 64

end Sys2Proof
end

