-- ==== Sys2Proof/Syntax.lean ====
section
/-! DEFINITION. The command words as data: one constructor of `Instr` for each row of spec/opcode_table.json
(spec/30_encoding.md R77), the sequencer's modes, and the pseudo-instructions of R83. -/

namespace Sys2Proof

/-- MODE, the sequencer mode (R17). It is the MODE column of the opcode map (R77): it decides how a word is read. -/
inductive Mode where
  /-- The next accepted word is read as a command. -/
  | idle
  /-- The next accepted word is read as a list element. -/
  | list
  /-- A transmit is in progress; no word can be accepted. -/
  | shift
  deriving DecidableEq, Repr

/-- The six rows of the opcode map (R77). SEG and COUNT are the unsigned 8-bit field as it stands (R78): the range
check on a segment is part of executing, not of decoding (R76). -/
inductive Instr where
  /-- ENABLE seg: set a segment's bit (R101). -/
  | enable (seg : Byte)
  /-- DISABLE_MANY count: announce a list of `count` elements (R103). -/
  | disableMany (count : Byte)
  /-- .SEG seg: one list element, clear a segment's bit (R104). -/
  | seg (seg : Byte)
  /-- DISABLE_ALL: clear the frame (R106). -/
  | disableAll
  /-- DISABLE seg: clear a segment's bit (R108). -/
  | disable (seg : Byte)
  /-- TRANSMIT: serialize the frame (R120). -/
  | transmit
  deriving DecidableEq, Repr

/-- The MODE in which an instruction's word is read as that instruction (R77, the MODE column). -/
def Instr.readMode : Instr → Mode
  | .enable _ => .idle
  | .disableMany _ => .idle
  | .seg _ => .list
  | .disableAll => .idle
  | .disable _ => .idle
  | .transmit => .idle

/-- The mnemonic of R77, R82. -/
def Instr.mnemonic : Instr → String
  | .enable _ => "ENABLE"
  | .disableMany _ => "DISABLE_MANY"
  | .seg _ => ".SEG"
  | .disableAll => "DISABLE_ALL"
  | .disable _ => "DISABLE"
  | .transmit => "TRANSMIT"

/-- The written form of an instruction, operand in decimal (R82). -/
def Instr.asmLine (i : Instr) : String :=
  match i with
  | .enable s => i.mnemonic ++ " " ++ toString s.toNat
  | .disableMany n => i.mnemonic ++ " " ++ toString n.toNat
  | .seg s => i.mnemonic ++ " " ++ toString s.toNat
  | .disableAll => i.mnemonic
  | .disable s => i.mnemonic ++ " " ++ toString s.toNat
  | .transmit => i.mnemonic

/-- The pseudo-instructions (R83). They are other spellings of core words and have no encoding of their own. -/
inductive Pseudo where
  /-- DISABLE_LIST s1, ..., sn: the source's disableMany(segments, count) as one line. -/
  | disableList (segs : List Byte)
  /-- BLANK: the startup sequence DISABLE_ALL; TRANSMIT. -/
  | blank
  /-- NOP: DISABLE_MANY 0. -/
  | nop
  deriving DecidableEq, Repr

/-- A pseudo-instruction's expansion (R83). -/
def Pseudo.expand : Pseudo → List Instr
  | .disableList segs => .disableMany (BitVec.ofNat 8 segs.length) :: segs.map .seg
  | .blank => [.disableAll, .transmit]
  | .nop => [.disableMany 0]

end Sys2Proof
end

