-- ==== Sys2Proof/WellFormed.lean ====
section
/-! DEFINITION. Well-formedness. Every operand value fits its 8-bit field by its type (R78), so what can be wrong is
WHERE an instruction stands: an instruction is read only in the MODE of its row (R77), a written stream follows a
DISABLE_MANY n line by exactly n .SEG lines (R82), and a DISABLE_LIST names 1 to 255 segments (R83). -/

namespace Sys2Proof

/-- The instruction is one that can be read in MODE `m` (R77). In SHIFT none can (R24). -/
def Instr.wfIn (i : Instr) (m : Mode) : Bool := i.readMode == m

/-- The host keeps to its duty on this instruction: its segment operand, if it has one, is 0..63 (R71, R186). -/
def Instr.inRange : Instr → Bool
  | .enable s => s.toNat < 64
  | .disableMany _ => true
  | .seg s => s.toNat < 64
  | .disableAll => true
  | .disable s => s.toNat < 64
  | .transmit => true

/-- A stream is well-formed with `pending` list elements still due: each header is followed by exactly its number of
.SEG lines, no .SEG stands elsewhere, and no list is left unfinished (R81, R82, R184). -/
def streamWfFrom : Nat → List Instr → Bool
  | 0, [] => true
  | _ + 1, [] => false
  | 0, .seg _ :: _ => false
  | 0, .disableMany n :: rest => streamWfFrom n.toNat rest
  | 0, .enable _ :: rest => streamWfFrom 0 rest
  | 0, .disableAll :: rest => streamWfFrom 0 rest
  | 0, .disable _ :: rest => streamWfFrom 0 rest
  | 0, .transmit :: rest => streamWfFrom 0 rest
  | p + 1, .seg _ :: rest => streamWfFrom p rest
  | _ + 1, .disableMany _ :: _ => false
  | _ + 1, .enable _ :: _ => false
  | _ + 1, .disableAll :: _ => false
  | _ + 1, .disable _ :: _ => false
  | _ + 1, .transmit :: _ => false

/-- A whole written stream, begun in IDLE, is well-formed (R82). -/
def streamWf (l : List Instr) : Bool := streamWfFrom 0 l

/-- A pseudo-instruction is well-formed: DISABLE_LIST takes 1 to 255 segments (R83). -/
def Pseudo.wf : Pseudo → Bool
  | .disableList segs => 1 ≤ segs.length && segs.length ≤ 255
  | .blank => true
  | .nop => true

end Sys2Proof
end

