-- ==== Sys2Proof/Decode.lean ====
section
/-! DEFINITION. Decoding, a total function of (MODE, word) that rejects by name (spec/30_encoding.md R76, R79), the
encoder written from the opcode map (R77), and the host's reading of a table word. -/

namespace Sys2Proof

/-- Why a word is no instruction in its MODE (R79). -/
inductive Illegal where
  /-- In IDLE, OP is 0x00 or 0x06..0xFF. -/
  | reservedOpcode
  /-- In IDLE, OP is 0x03 or 0x05 and ARG is not 0x00. -/
  | nonzeroArgument
  /-- In LIST, the upper byte is not 0x00. -/
  | malformedElement
  /-- In SHIFT no word is accepted, so none is read (R24, R76). DESIGN CHOICE, log 16. -/
  | notAccepting
  deriving DecidableEq, Repr

/-- OP(w) = w[15:8] (R70). -/
def opField (w : CmdWord) : Byte := w.extractLsb' 8 8

/-- ARG(w) = w[7:0] (R70). -/
def argField (w : CmdWord) : Byte := w.extractLsb' 0 8

/-- decode(IDLE, w) (R76). -/
def decodeIdle (w : CmdWord) : Except Illegal Instr :=
  if opField w = 0x01 then .ok (.enable (argField w))
  else if opField w = 0x02 then .ok (.disableMany (argField w))
  else if opField w = 0x03 then
    if argField w = 0x00 then .ok .disableAll else .error .nonzeroArgument
  else if opField w = 0x04 then .ok (.disable (argField w))
  else if opField w = 0x05 then
    if argField w = 0x00 then .ok .transmit else .error .nonzeroArgument
  else .error .reservedOpcode

/-- decode(LIST, w) (R76). -/
def decodeList (w : CmdWord) : Except Illegal Instr :=
  if opField w = 0x00 then .ok (.seg (argField w)) else .error .malformedElement

/-- decode(MODE, w) (R76). -/
def decode (m : Mode) (w : CmdWord) : Except Illegal Instr :=
  match m with
  | .idle => decodeIdle w
  | .list => decodeList w
  | .shift => .error .notAccepting

/-- The word of an instruction, from the encoding column of R77. -/
def encode : Instr → CmdWord
  | .enable s => (0x01 : Byte) ++ s
  | .disableMany n => (0x02 : Byte) ++ n
  | .seg s => (0x00 : Byte) ++ s
  | .disableAll => 0x0300
  | .disable s => (0x04 : Byte) ++ s
  | .transmit => 0x0500

/-- The words of a written stream, in order (R82, R83). -/
def encodeStream (l : List Instr) : List CmdWord := l.map encode

/-- The MODE in which the opcode table's row for a word is read: the .SEG row (upper byte 0x00) in LIST, every other
row in IDLE (R77). Log 8. -/
def tableMode (w : CmdWord) : Mode :=
  if opField w = 0x00 then .list else .idle

/-- The command word that the low `nbits` bits of a number are; every bit above them is 0. -/
def tableWord (nbits w : Nat) : CmdWord := BitVec.ofNat 16 (w % 2 ^ nbits)

/-- What the decoder reads from an opcode-table word, in the MODE its row is read in. A command word is one 16-bit value
on CMD_WORD (R24, R70), so there is no byte order and no later word: a number that needs more than 16 bits is none. -/
def decodeTableWord (nbits w : Nat) : Option Instr :=
  if w % 2 ^ nbits < 2 ^ 16 then
    match decode (tableMode (tableWord nbits w)) (tableWord nbits w) with
    | .ok i => some i
    | .error _ => none
  else none

end Sys2Proof
end

