-- ==== Sys2Proof/Config.lean ====
section
/-! DEFINITION. What is fixed for the machine, and what the spec leaves open (spec/00_scope.md R5, R6;
spec/92_eei_decisions.md 'Open parameters, collected'). -/

namespace Sys2Proof.Config

/-- TXSTEP of the last pin-drive micro-step of a transmit (R19, R121). -/
def txLast : Nat := 193

/-- TX_STEPS, the pin-drive micro-steps of one transmit (R6). -/
def txSteps : Nat := 194

/-- SR0: what the external chain holds at power-on. Any value (R175, 93 U2): an opaque free value, no proof can
see what it is. DESIGN CHOICE, log 1. -/
opaque sr0 : Word64

/-- OUT0: what the external output latch holds at power-on. Any value, independent of SR0 (R175, 93 U2).
DESIGN CHOICE, log 1. -/
opaque out0 : Word64

/-- TOPO, the host's topology table (R8, 92 D27): six digit sequences of ten segment indices and four dots. It is a
parameter of the host and no rule of the block reads it (R33); a statement that speaks of it takes it as an argument. -/
structure Topology where
  digits : Vector (Vector Nat 10) 6
  dots   : Vector Nat 4
  deriving DecidableEq, Repr

/-- All 64 entries of a table, digits first. -/
def Topology.entries (t : Topology) : List Nat :=
  t.digits.toList.flatMap Vector.toList ++ t.dots.toList

/-- The invariant of R8: the entries are pairwise distinct and cover exactly 0..63. -/
abbrev Topology.Valid (t : Topology) : Prop := t.entries.Perm (List.range 64)

end Sys2Proof.Config
end

