-- ==== Sys2Proof/Machine/State.lean ====
section
/-! DEFINITION. The whole state of the block and of the environment the spec models beside it (spec/10_state.md R10), the
reasons a step can stop, and the state after power-on reset (R32). -/

namespace Sys2Proof.Machine

/-- One coming move of the host or of the power-supply collaborator (R191, R192, R194). DESIGN CHOICE, log 2. -/
inductive Input where
  /-- The host offers a word and holds it until it is accepted (R24, R192). -/
  | word (w : CmdWord)
  /-- Neither acts: the host offers no word (or withdraws one) while the block makes one move, if it has one (R194). Log 3. -/
  | wait
  /-- The host asserts and releases RST (R26, R171). Log 7. -/
  | reset
  /-- The power-supply collaborator sets HVEN (R191 (d)). -/
  | hven (level : Bool)
  deriving DecidableEq, Repr

/-- The three output pins (R23). -/
inductive Pin where
  | sdata
  | sclk
  | slatch
  deriving DecidableEq, Repr

/-- A pin event: drive(PIN, v) (00_scope.md section 6). -/
structure Drive where
  pin   : Pin
  level : Bool
  deriving DecidableEq, Repr

/-- The two faults of the block (R143). They are recorded in a sticky flag and stop nothing (R146). -/
inductive BlockFault where
  /-- RangeFault: a segment field of 64 or more (R141). -/
  | range
  /-- IllegalFault: a reserved or malformed word (R142). -/
  | illegal
  deriving DecidableEq, Repr

/-- The state (R10). The last field is the model's own: what the host and the supply will do next (log 2). -/
structure State where
  /-- B[0] .. B[7] (R11). -/
  frame        : Vector Byte 8
  /-- MODE (R17). -/
  mode         : Mode
  /-- LISTREM, list elements still to come (R18). -/
  listRem      : BitVec 8
  /-- TXSTEP, the next transmit micro-step (R19). -/
  txStep       : BitVec 8
  /-- FAULT_RANGE, sticky (R21). -/
  faultRange   : Bool
  /-- FAULT_ILLEGAL, sticky (R21). -/
  faultIllegal : Bool
  /-- SDATA, the level of the serial data pin (R23). -/
  sdata        : Bool
  /-- SCLK, the level of the serial clock pin (R23). -/
  sclk         : Bool
  /-- SLATCH, the level of the latch pin (R23). -/
  slatch       : Bool
  /-- SR[63:0], the external shift chain, stage 0 nearest the data input (R27). -/
  sr           : Word64
  /-- OUT[63:0], the external output latch (R28). -/
  out          : Word64
  /-- HVEN, the high-voltage rail is enabled (R29). -/
  hven         : Bool
  /-- The coming moves of the host and the supply, first one first (R192; log 2). -/
  inputs       : List Input
  deriving DecidableEq, Repr

/-- Why the machine stops. No instruction ends in one of these; each is raised by the sequencer (Machine/Sequencer.lean)
and each is safe: the model stops where no rule of the spec gives a move. -/
inductive Fault where
  /-- Raised by a step in MODE = IDLE when no input is left: the run has ended (R192). Safe. Log 4. -/
  | streamEnded
  /-- Raised by a step in MODE = LIST when no input is left: stuck waiting for the host (R192, 93 U11). Safe. Log 4. -/
  | stuckInList
  /-- Raised by a micro-step with TXSTEP above 193, which no rule names and no reachable state has (R19, R121). Safe. Log 5. -/
  | noSuchMicroStep
  deriving DecidableEq, Repr

/-- Why an instruction has no meaning. -/
inductive Refusal where
  /-- Raised by an arm of `exec` whose instruction is not modelled yet; no arm does. Safe. -/
  | notModelled (mnemonic : String)
  deriving DecidableEq, Repr

/-- The state after RST at power-on, for a draw of SR and OUT (R32, R175). -/
def State.powerOn (sr0 out0 : Word64) : State where
  frame := Vector.replicate 8 0x00
  mode := .idle
  listRem := 0
  txStep := 0
  faultRange := false
  faultIllegal := false
  sdata := false
  sclk := false
  slatch := false
  sr := sr0
  out := out0
  hven := false
  inputs := []

/-- The machine right after reset (R32): `powerOn` at the configuration's free values for SR and OUT (log 1), with no
input scheduled (log 2). -/
def State.reset : State := State.powerOn Config.sr0 Config.out0

end Sys2Proof.Machine
end

