-- ==== Sys2Proof/Machine/Operands.lean ====
section
/-! DEFINITION. The segment operand and the write decoder (spec/20_memory.md R40 to R43, R48). `Fin 64` is a segment index
that has passed the range check, so the decoder is never evaluated outside its range (R48, R102). -/

namespace Sys2Proof.Machine

/-- The range check on a segment field: 0..63 is a location, 64..255 is none (R48). No masking, no wrap. -/
def segIndex? (seg : Byte) : Option (Fin 64) :=
  if h : seg.toNat < 64 then some ⟨seg.toNat, h⟩ else none

/-- byteidx(seg) = 7 - (seg div 8) (R41). -/
def byteIdx (k : Fin 64) : Fin 8 := ⟨7 - k.val / 8, by omega⟩

/-- bitidx(seg) = seg mod 8 (R42). -/
def bitIdx (k : Fin 64) : Fin 8 := ⟨k.val % 8, by omega⟩

/-- The one-hot byte mask 1 << (seg mod 8) (R42). -/
def bitMask (k : Fin 64) : Byte := 1#8 <<< (bitIdx k).val

/-- wpos(seg) = 8*(7 - (seg div 8)) + (seg mod 8), the bit of W that holds the segment (R43). -/
def wpos (k : Fin 64) : Fin 64 := ⟨8 * (byteIdx k).val + (bitIdx k).val, by omega⟩

/-- The 0-based position of a segment in the order of transmission (R46). -/
def wireOrder (k : Fin 64) : Fin 64 := ⟨63 - (wpos k).val, by omega⟩

/-- The segment sent as the i-th bit, 8*(i div 8) + 7 - (i mod 8) (R122). -/
def wireSegment (i : Fin 64) : Fin 64 := ⟨8 * (i.val / 8) + 7 - i.val % 8, by omega⟩

end Sys2Proof.Machine
end

