-- ==== Sys2Proof/Machine/Ops.lean ====
section
/-! DEFINITION. The named operations over the frame, the faults, the list counter, the pins with the environment's
reaction, and reset. Every meaning is built from these. -/

namespace Sys2Proof.Machine

/-- W as a function of the eight bytes: B[7] in the most significant place, B[0] in the least (R12). -/
def frameWord (f : Vector Byte 8) : Word64 :=
  f[7] ++ f[6] ++ f[5] ++ f[4] ++ f[3] ++ f[2] ++ f[1] ++ f[0]

/-- The word view W of the frame (R12). -/
def State.W (s : State) : Word64 := frameWord s.frame

/-- MemRead(seg, 1): the segment view F[seg] = B[7 - (seg div 8)][seg mod 8] (R13). -/
def State.F (s : State) (k : Fin 64) : Bool := s.frame[byteIdx k].getLsbD (bitIdx k).val

/-- MemWrite(seg, 1, v): one byte is or-ed with the mask, or and-ed with its complement; every other bit keeps its value
(R49, R101, R108). -/
def memWrite (k : Fin 64) (v : Bool) (s : State) : State :=
  let old := s.frame[byteIdx k]
  { s with frame := s.frame.set (byteIdx k) (if v then old ||| bitMask k else old &&& ~~~bitMask k) }

/-- MemWrite(ALL, 64, 0): all eight bytes in the same step (R106). -/
def clearFrame (s : State) : State := { s with frame := Vector.replicate 8 0x00 }

/-- Raising a fault, the block's whole 'trap entry' (R141, R142, R146): its sticky flag is set; nothing is saved, control
goes nowhere, and there is no return (R147). -/
def raise (f : BlockFault) (s : State) : State :=
  match f with
  | .range => { s with faultRange := true }
  | .illegal => { s with faultIllegal := true }

/-- Write one segment, or raise RangeFault and leave the frame alone, as the range check decides (R48, R101, R108). -/
def segWrite (seg : Byte) (v : Bool) (s : State) : State :=
  match segIndex? seg with
  | some k => memWrite k v s
  | none => raise .range s

/-- Begin a list (R103). -/
def loadList (count : Byte) (s : State) : State :=
  if count = 0 then s else { s with listRem := count, mode := .list }

/-- LISTREM after one more element: decremented only when it is at least 1, so it never wraps (R18). Log 6. -/
def listRemAfter (s : State) : BitVec 8 := if s.listRem = 0 then 0 else s.listRem - 1

/-- Steps 2 and 3 of a list element: LISTREM <- LISTREM - 1, and MODE <- IDLE when the new value is 0 (R104). -/
def countElement (s : State) : State :=
  { s with
    listRem := listRemAfter s
    mode := if listRemAfter s = 0 then .idle else s.mode }

/-- SR after a rising clock edge: SR[62:0] ∥ SDATA (R27). -/
def shiftIn (sr : Word64) (d : Bool) : Word64 := sr.extractLsb' 0 63 ++ BitVec.ofBool d

/-- drive(PIN, v), with the environment's reaction to the edge it makes: a rising SCLK shifts the chain (R27), a rising
SLATCH commits it to the output latch (R28); nothing else does. -/
def drive (d : Drive) (s : State) : State :=
  match d.pin with
  | .sdata => { s with sdata := d.level }
  | .sclk => { s with sclk := d.level, sr := if d.level && !s.sclk then shiftIn s.sr s.sdata else s.sr }
  | .slatch => { s with slatch := d.level, out := if d.level && !s.slatch then s.sr else s.out }

/-- The pin events of reset, in order (R171). -/
def resetDrives : List Drive := [⟨.sdata, false⟩, ⟨.sclk, false⟩, ⟨.slatch, false⟩]

/-- Drive several pins in order. -/
def driveAll (ds : List Drive) (s : State) : State := ds.foldl (fun t d => drive d t) s

/-- The effect of RST (R171). SR, OUT and HVEN are not written; the three drives are to 0 and make no rising edge (R172). -/
def applyReset (s : State) : State :=
  { driveAll resetDrives s with
    frame := Vector.replicate 8 0x00
    mode := .idle
    listRem := 0
    txStep := 0
    faultRange := false
    faultIllegal := false }

/-- HVEN <- level, the supply's move; it touches nothing else (R191 (d)). -/
def setHven (level : Bool) (s : State) : State := { s with hven := level }

end Sys2Proof.Machine
end

