-- ==== Sys2Proof/Machine/Flags.lean ====
section
/-! DEFINITION. The flags, the status vector and the output ports (spec/10_state.md R21 to R25). None is a condition code:
no operation's result depends on a flag (R21). -/

namespace Sys2Proof.Machine

/-- BUSY: 1 iff MODE = SHIFT (R21). -/
def State.busy (s : State) : Bool := s.mode == .shift

/-- LIST: 1 iff MODE = LIST (R21). -/
def State.listFlag (s : State) : Bool := s.mode == .list

/-- STATUS[7:0]: bit 0 BUSY, bit 1 LIST, bit 2 FAULT_RANGE, bit 3 FAULT_ILLEGAL, bits 7:4 hardwired 0 (R22). -/
def State.status (s : State) : BitVec 8 :=
  0#4 ++ BitVec.ofBool s.faultIllegal ++ BitVec.ofBool s.faultRange ++ BitVec.ofBool s.listFlag ++ BitVec.ofBool s.busy

/-- The FAULT pin (R22). -/
def State.fault (s : State) : Bool := s.faultRange || s.faultIllegal

/-- FRAME_Q = W at all times (R25). -/
def State.frameQ (s : State) : Word64 := s.W

end Sys2Proof.Machine
end

