-- ==== Sys2Proof/Machine/FrameWrite.lean ====
section
/-! DEFINITION. The frame-write family (spec/40_frame_write.md): ENABLE, DISABLE_MANY and its list element .SEG, DISABLE_ALL,
DISABLE. MODE has already decided how the word is read (R76), so a meaning does not test it again (DEDUCED, log 11). -/

namespace Sys2Proof.Machine

/-- ENABLE seg (R101). -/
def execEnable (seg : Byte) (s : State) : Host.Outcome State Fault Refusal :=
  .next (segWrite seg true s)

/-- DISABLE_MANY count, the header (R103). -/
def execDisableMany (count : Byte) (s : State) : Host.Outcome State Fault Refusal :=
  .next (loadList count s)

/-- .SEG seg, one well-formed list element (R104): the element counts whether or not it faults. -/
def execSeg (seg : Byte) (s : State) : Host.Outcome State Fault Refusal :=
  .next (countElement (segWrite seg false s))

/-- DISABLE_ALL (R106). The fault flags are not cleared. -/
def execDisableAll (s : State) : Host.Outcome State Fault Refusal :=
  .next (clearFrame s)

/-- DISABLE seg (R108). -/
def execDisable (seg : Byte) (s : State) : Host.Outcome State Fault Refusal :=
  .next (segWrite seg false s)

end Sys2Proof.Machine
end

