-- ==== Sys2Proof/Machine/Transmit.lean ====
section
/-! DEFINITION. TRANSMIT and its micro-steps (spec/41_transmit.md). The accept step enters SHIFT and drives no pin (R120);
each of the 194 micro-steps is a step of its own (R121), so that RST can arrive between two of them (R126, R132). -/

namespace Sys2Proof.Machine

/-- TRANSMIT, the accept step (R120). -/
def execTransmit (s : State) : Host.Outcome State Fault Refusal :=
  .next { s with mode := .shift, txStep := 0 }

/-- The pin event of micro-step `t` for the frame word `w` (R121). No rule names a micro-step above 193. -/
def microDrive (w : Word64) (t : Nat) : Option Drive :=
  if t = 0 then some ⟨.slatch, false⟩
  else if t < Config.txLast then
    let i := (t - 1) / 3
    if (t - 1) % 3 = 0 then some ⟨.sdata, w.getLsbD (63 - i)⟩
    else if (t - 1) % 3 = 1 then some ⟨.sclk, true⟩
    else some ⟨.sclk, false⟩
  else if t = Config.txLast then some ⟨.slatch, true⟩
  else none

/-- TXSTEP and MODE after a micro-step: the one at 193 sets TXSTEP back to 0 and leaves SHIFT (R19, R121). -/
def advanceTx (s : State) : State :=
  if s.txStep.toNat = Config.txLast then { s with txStep := 0, mode := .idle }
  else { s with txStep := s.txStep + 1 }

/-- One micro-step, named by TXSTEP (R121). -/
def microStep (s : State) : Host.Outcome State Fault Refusal :=
  match microDrive s.W s.txStep.toNat with
  | some d => .next (advanceTx (drive d s))
  | none => .fault .noSuchMicroStep

/-- `n` micro-steps in a row, with nothing between them. -/
def microSteps : Nat → State → Host.Outcome State Fault Refusal
  | 0, s => .next s
  | n + 1, s =>
    match microStep s with
    | .next s' => microSteps n s'
    | .fault r => .fault r
    | .refused r => .refused r

/-- The macro-step view of a whole un-reset transmit (R126). -/
def macroTransmit (s : State) : State :=
  { s with
    mode := .idle
    txStep := 0
    sdata := s.W.getLsbD 0
    sclk := false
    slatch := true
    sr := s.W
    out := s.W }

/-- The three pin events of bit `i` (R121, R123). -/
def bitDrives (w : Word64) (i : Nat) : List Drive :=
  [⟨.sdata, w.getLsbD (63 - i)⟩, ⟨.sclk, true⟩, ⟨.sclk, false⟩]

/-- The 194 pin events of one transmit of the word `w` (R123). -/
def transmitTrace (w : Word64) : List Drive :=
  ⟨.slatch, false⟩ :: ((List.range 64).flatMap (bitDrives w) ++ [⟨.slatch, true⟩])

end Sys2Proof.Machine
end

