-- ==== Sys2Proof/Machine/Dispatch.lean ====
section
/-! DEFINITION. One arm per constructor of `Instr`. -/

namespace Sys2Proof.Machine

def exec (i : Instr) (s : State) : Host.Outcome State Fault Refusal :=
  match i with
  | .enable seg => Sys2Proof.Machine.execEnable seg s
  | .disableMany count => Sys2Proof.Machine.execDisableMany count s
  | .seg seg => Sys2Proof.Machine.execSeg seg s
  | .disableAll => Sys2Proof.Machine.execDisableAll s
  | .disable seg => Sys2Proof.Machine.execDisable seg s
  | .transmit => Sys2Proof.Machine.execTransmit s

end Sys2Proof.Machine
end

