-- ==== Sys2Proof/Machine/Sequencer.lean ====
section
/-! DEFINITION. The command port and the moves of the machine (spec/10_state.md R24, R26; spec/70_reset_and_hazards.md R191,
R192, R194): which move comes next, and what it does. -/

namespace Sys2Proof.Machine

/-- The moves of R191, and the two cases in which none is made. -/
inductive Move where
  /-- (a) the offered word is accepted. -/
  | accept (w : CmdWord)
  /-- (b) the transmitter performs the micro-step named by TXSTEP. -/
  | microStep
  /-- (c) RST. -/
  | reset
  /-- (d) the supply sets HVEN. -/
  | hven (level : Bool)
  /-- The host offers nothing in IDLE or LIST for a while: no move of R191, only the schedule goes on (log 3). -/
  | hostWaits
  /-- No input is left in IDLE or LIST: no move exists (R192, log 4). -/
  | noMove
  deriving DecidableEq, Repr

/-- RST is asserted: the coming input is a reset (R26). -/
def State.rst (s : State) : Bool := s.inputs.head? == some .reset

/-- CMD_WORD while a word is offered; `none` is CMD_VALID = 0 (R24). -/
def State.cmdWord? (s : State) : Option CmdWord :=
  match s.inputs with
  | .word w :: _ => some w
  | _ => none

/-- CMD_VALID (R24). -/
def State.cmdValid (s : State) : Bool := s.cmdWord?.isSome

/-- CMD_READY = 1 iff MODE != SHIFT and RST is not asserted (R24). -/
def State.cmdReady (s : State) : Bool := s.mode != .shift && !s.rst

/-- What the block does when neither RST nor the supply acts: in SHIFT a micro-step whatever the host offers, otherwise an
accept of an offered word (R191 (a), (b); R24). -/
def State.blockMove (s : State) : Move :=
  match s.mode, s.inputs with
  | .shift, _ => .microStep
  | _, .word w :: _ => .accept w
  | _, [] => .noMove
  | _, _ => .hostWaits

/-- The move that comes next. RST has priority over everything (R145). -/
def State.nextMove (s : State) : Move :=
  match s.inputs with
  | .reset :: _ => .reset
  | .hven level :: _ => .hven level
  | _ => s.blockMove

/-- The inputs still to come after the next move: the first one is used up, but for a word offered during SHIFT, which is
held (R24, R185, R192). -/
def State.inputsAfter (s : State) : List Input :=
  match s.mode, s.inputs with
  | .shift, .word w :: rest => .word w :: rest
  | _, inputs => inputs.tail

/-- The state with the next input taken off the schedule. -/
def State.takeInput (s : State) : State := { s with inputs := s.inputsAfter }

/-- A word that is no instruction in its MODE: IllegalFault, and in LIST it still counts as one element (R142). -/
def rejectWord (s : State) : State :=
  match s.mode with
  | .list => countElement (raise .illegal s)
  | .idle => raise .illegal s
  | .shift => raise .illegal s

/-- An accept: the word is read in the present MODE and its step is executed whole (R24, R76, R191 (a)). -/
def acceptWord (w : CmdWord) (s : State) : Host.Outcome State Fault Refusal :=
  match decode s.mode w with
  | .ok i => exec i s
  | .error _ => .next (rejectWord s)

/-- Why no move exists (R192): in LIST the stream was used up inside a list, otherwise the run has ended. -/
def noMoveFault (s : State) : Fault :=
  match s.mode with
  | .list => .stuckInList
  | .idle => .streamEnded
  | .shift => .streamEnded

/-- Perform the next move (R191). -/
def performMove (s : State) : Host.Outcome State Fault Refusal :=
  match s.nextMove with
  | .accept w => acceptWord w s.takeInput
  | .microStep => microStep s.takeInput
  | .reset => .next (applyReset s.takeInput)
  | .hven level => .next (setHven level s.takeInput)
  | .hostWaits => .next s.takeInput
  | .noMove => .fault (noMoveFault s)

/-- Put the sequencer into the MODE in which a table row's word is read: the control triple (MODE, LISTREM, TXSTEP) of R16,
changed only where it does not already read the word that way (log 8). -/
def selectMode (w : CmdWord) (s : State) : State :=
  match tableMode w, s.mode with
  | .list, .list => s
  | .list, _ => { s with mode := .list, listRem := 1, txStep := 0 }
  | _, .idle => s
  | _, _ => { s with mode := .idle, listRem := 0, txStep := 0 }

/-- Let the host offer a word as its very next move. -/
def offerWord (w : CmdWord) (s : State) : State := { s with inputs := .word w :: s.inputs }

end Sys2Proof.Machine
end

