-- ==== Sys2Proof/Machine/Step.lean ====
section
/-! DEFINITION. One step of the machine: the next move of spec/70_reset_and_hazards.md R191. -/

namespace Sys2Proof.Machine

/-- One step. -/
def step (s : State) : Host.Outcome State Fault Refusal := performMove s

/-- `s` with a table word offered as the host's next move, in the MODE its row is read in (log 8). -/
def State.withFetchWord (s : State) (nbits w : Nat) : State :=
  offerWord (tableWord nbits w) (selectMode (tableWord nbits w) s)

end Sys2Proof.Machine
end

