-- ==== Sys2Proof/Machine/Observe.lean ====
section
/-! DEFINITION. What the outside can observe (spec/10_state.md R29; spec/70_reset_and_hazards.md R193): the glowing segments,
the pin trace, the display history and the end state. They are read from the state and its steps; none is stored (R10, R33). -/

namespace Sys2Proof.Machine

/-- Segment `k` glows iff HVEN = 1 and OUT[wpos(k)] = 1 (R29). -/
def State.glows (s : State) (k : Fin 64) : Bool := s.hven && s.out.getLsbD (wpos k).val

/-- The set of glowing segments (R193 (2)), in rising order. -/
def State.glowing (s : State) : List (Fin 64) := (List.finRange 64).filter s.glows

/-- The pin events the next step makes, in order (R23: only micro-steps and reset make any). -/
def State.stepDrives (s : State) : List Drive :=
  match s.nextMove with
  | .microStep => (microDrive s.W s.txStep.toNat).toList
  | .reset => resetDrives
  | _ => []

/-- The pin trace of `n` steps from `s` (R193 (1)); it ends where the machine stops. -/
def pinTrace : Nat → State → List Drive
  | 0, _ => []
  | n + 1, s =>
    match step s with
    | .next s' => s.stepDrives ++ pinTrace n s'
    | _ => []

/-- The next step commits the chain to the latch: a micro-step that drives SLATCH up from 0 (R28). -/
def State.commits (s : State) : Bool :=
  !s.slatch && (s.stepDrives == [⟨.slatch, true⟩])

/-- The display history of `n` steps from `s`: one value of OUT per commit (R193 (2)). -/
def displayHistory : Nat → State → List Word64
  | 0, _ => []
  | n + 1, s =>
    match step s with
    | .next s' => (if s.commits then [s'.out] else []) ++ displayHistory n s'
    | _ => []

/-- The end state observed (R193 (3)). -/
structure EndState where
  w            : Word64
  faultRange   : Bool
  faultIllegal : Bool
  mode         : Mode
  sdata        : Bool
  sclk         : Bool
  slatch       : Bool
  sr           : Word64
  out          : Word64
  deriving DecidableEq, Repr

/-- The end-state observation of a state (R193 (3)). -/
def State.endState (s : State) : EndState :=
  ⟨s.W, s.faultRange, s.faultIllegal, s.mode, s.sdata, s.sclk, s.slatch, s.sr, s.out⟩

/-- The start state of a run (R192): RST at power-on with a draw of SR and OUT, HVEN = 0, and a command stream. -/
def State.start (sr0 out0 : Word64) (stream : List CmdWord) : State :=
  { State.powerOn sr0 out0 with inputs := stream.map .word }

end Sys2Proof.Machine
end

