-- ==== Sys2Proof/Safety.lean ====
section
/-! DEFINITION. What counts as a safe state and a safe run: the invariants of spec/10_state.md R20, the chain invariant behind
R125 and R127, a clean run (R148), the end of a run and the stuck state (R192), the startup contract (R176). -/

namespace Sys2Proof.Machine

/-- The invariants I-a to I-f of R20. DEDUCED, log 15: I-f is stated in both directions and for TXSTEP = 0
too (SCLK is 1 exactly between the rise and the fall of a bit): R20's one direction alone is not kept by every step of a
state no run reaches. -/
structure State.Inv (s : State) : Prop where
  /-- I-a -/
  list_iff : s.mode = .list ↔ 1 ≤ s.listRem.toNat
  /-- I-b -/
  txStep_zero : s.mode ≠ .shift → s.txStep = 0
  /-- I-c -/
  sclk_low : s.mode ≠ .shift → s.sclk = false
  /-- I-d -/
  slatch_low : s.mode = .shift → 1 ≤ s.txStep.toNat → s.slatch = false
  /-- I-e -/
  txStep_le : s.txStep.toNat ≤ 193
  /-- I-f: TXSTEP = 1 + 3*i + 2 with 0 <= i <= 63, that is 3, 6, ..., 192 -/
  sclk_high : s.mode = .shift → (s.sclk = true ↔ ∃ i, i ≤ 63 ∧ s.txStep.toNat = 1 + 3 * i + 2)

/-- Clock rising edges made so far by the transmit in progress: bit i rises at micro-step 2 + 3i (R121). -/
def State.edges (s : State) : Nat := s.txStep.toNat / 3

/-- The chain during a transmit (R125): after k clock edges the low k stages hold the top k bits of W in order, and
between a data drive and its clock edge SDATA holds the bit about to be sent. -/
structure State.ChainInv (s : State) : Prop where
  low_stages : s.mode = .shift → ∀ j, j < s.edges → s.sr.getLsbD j = s.W.getLsbD (64 - s.edges + j)
  data_ready : s.mode = .shift → s.txStep.toNat % 3 = 2 → s.sdata = s.W.getLsbD (63 - s.edges)

/-- The block's state and its output ports after RST (R32). -/
structure State.ResetValues (s : State) : Prop where
  frame        : ∀ i : Fin 8, s.frame[i] = 0x00
  mode         : s.mode = .idle
  listRem      : s.listRem = 0
  txStep       : s.txStep = 0
  faultRange   : s.faultRange = false
  faultIllegal : s.faultIllegal = false
  pins         : s.sdata = false ∧ s.sclk = false ∧ s.slatch = false
  status       : s.status = 0x00
  busy         : s.busy = false
  fault        : s.fault = false
  frameQ       : s.frameQ = 0

/-- No fault flag is set (R148). -/
abbrev State.Clean (s : State) : Prop := s.faultRange = false ∧ s.faultIllegal = false

/-- The run has ended: every word is accepted and MODE = IDLE (R192). -/
abbrev State.Ended (s : State) : Prop := s.inputs = [] ∧ s.mode = .idle

/-- Stuck waiting for the host: the stream is used up in LIST (R192, 93 U11). Not an end. -/
abbrev State.Stuck (s : State) : Prop := s.inputs = [] ∧ s.mode = .list

/-- The startup contract over the first `n` steps from `s` (R176): HVEN is 0 in every state up to the first commit, the one
that makes the display agree with a frame. After it the supply may raise HVEN. -/
def darkUntilCommit : Nat → State → Bool
  | 0, s => !s.hven
  | n + 1, s =>
    !s.hven && (s.commits || match step s with
      | .next s' => darkUntilCommit n s'
      | _ => true)

/-- `t`'s frame is `s`'s with segment `seg` written to `v`, said in all three views: byte 7 - (seg div 8) is or-ed with
1 << (seg mod 8), or and-ed with its complement; W changes at bit 8*(7 - seg div 8) + seg mod 8; F changes at `seg` alone
(R41, R42, R43, R101, R108). -/
structure WritesOneSegment (seg : Byte) (v : Bool) (s t : State) : Prop where
  bytes : ∀ i : Fin 8, t.frame[i] =
    if i.val = 7 - seg.toNat / 8 then
      if v then s.frame[i] ||| 1#8 <<< (seg.toNat % 8) else s.frame[i] &&& ~~~(1#8 <<< (seg.toNat % 8))
    else s.frame[i]
  word : t.W =
    if v then s.W ||| 1#64 <<< (8 * (7 - seg.toNat / 8) + seg.toNat % 8)
    else s.W &&& ~~~(1#64 <<< (8 * (7 - seg.toNat / 8) + seg.toNat % 8))
  segments : ∀ u : Fin 64, t.F u = if u.val = seg.toNat then v else s.F u

/-- ENABLE seg for `true`, DISABLE seg for `false`. -/
def segInstr (v : Bool) (seg : Byte) : Instr := if v then .enable seg else .disable seg

/-- The moves still to come at most (R192): one for each input, 194 micro-steps for each TRANSMIT word, and the rest of the
transmit in progress. -/
def State.movesLeft (s : State) : Nat :=
  s.inputs.length + 194 * s.inputs.count (.word 0x0500#16) + (if s.mode = .shift then 194 - s.txStep.toNat else 0)

end Sys2Proof.Machine
end

