-- ==== Sys2Proof/Certificates/Slice0/Obligations.lean ====
section
/-! DEFINITION. The statements for the provers. Each docstring names the rule of spec/ it formalises. Where the spec marks a
rule 'derived' or 'decision', that mark is the spec's own; where a clause rests on a choice of this model, the docstring
names the log entry. -/

open Sys2Proof Sys2Proof.Machine

/-! ## Encoding -/

/-- Words written out bit by bit from the encoding column of R77, one or more for every row, and two words that R79 calls
illegal. -/
def Obligations.WordsWrittenOutDecode : Prop :=
  decode .idle 0b0000000100000101 = .ok (.enable 5) ∧
  decode .idle 0b0000000111111111 = .ok (.enable 255) ∧
  decode .idle 0b0000001000000100 = .ok (.disableMany 4) ∧
  decode .list 0b0000000000111100 = .ok (.seg 60) ∧
  decode .idle 0b0000001100000000 = .ok .disableAll ∧
  decode .idle 0b0000010000111111 = .ok (.disable 63) ∧
  decode .idle 0b0000010100000000 = .ok .transmit ∧
  decode .idle 0b0000000000111100 = .error .reservedOpcode ∧
  decode .list 0b0000010100000000 = .error .malformedElement

/-- R76, in numbers: the upper byte is the word div 256 and the lower byte the word mod 256. -/
def Obligations.DecodeFollowsModeAndUpperByte : Prop :=
  ∀ w : CmdWord,
    (w.toNat / 256 = 0 → decode .list w = .ok (.seg (BitVec.ofNat 8 (w.toNat % 256)))) ∧
    (w.toNat / 256 ≠ 0 → ∃ e, decode .list w = .error e) ∧
    (w.toNat / 256 = 1 → decode .idle w = .ok (.enable (BitVec.ofNat 8 (w.toNat % 256)))) ∧
    (w.toNat / 256 = 2 → decode .idle w = .ok (.disableMany (BitVec.ofNat 8 (w.toNat % 256)))) ∧
    (w.toNat = 3 * 256 → decode .idle w = .ok .disableAll) ∧
    (w.toNat / 256 = 3 → w.toNat % 256 ≠ 0 → ∃ e, decode .idle w = .error e) ∧
    (w.toNat / 256 = 4 → decode .idle w = .ok (.disable (BitVec.ofNat 8 (w.toNat % 256)))) ∧
    (w.toNat = 5 * 256 → decode .idle w = .ok .transmit) ∧
    (w.toNat / 256 = 5 → w.toNat % 256 ≠ 0 → ∃ e, decode .idle w = .error e) ∧
    (w.toNat / 256 = 0 ∨ 6 ≤ w.toNat / 256 → ∃ e, decode .idle w = .error e)

/-- Decode of encode is the instruction, in every MODE in which it can be read, with every operand at every value. -/
def Obligations.DecodeOfEncodeIsTheInstruction : Prop :=
  ∀ (i : Instr) (m : Mode), i.wfIn m = true → decode m (encode i) = .ok i

/-- The other direction: a word that decodes in a MODE is the encoding of what it decodes to, and that instruction belongs
to that MODE. So no two words of one MODE mean the same, and no word means two things in one MODE. -/
def Obligations.DecodedWordIsTheEncoding : Prop :=
  ∀ (m : Mode) (w : CmdWord) (i : Instr), decode m w = .ok i → encode i = w ∧ i.wfIn m = true

/-! ## The write decoder and the views of the frame -/

/-- R43 (a) to (d) and the last column of R46: wpos is a bijection of 0..63, its own inverse, with no fixed point; the
segment sent i-th has order i on the wire. -/
def Obligations.WriteDecoderIsABijection : Prop :=
  (∀ k : Fin 64, (wpos k).val = 56 - 8 * (k.val / 8) + k.val % 8) ∧
  Function.Bijective wpos ∧
  (∀ k : Fin 64, wpos (wpos k) = k) ∧
  (∀ k : Fin 64, wpos k ≠ k) ∧
  (∀ i : Fin 64, wireOrder (wireSegment i) = i)

/-- R12 and R13: the byte, word and segment views are the same 64 bits. -/
def Obligations.FrameViewsAgree : Prop :=
  ∀ s : State,
    (∀ (i b : Nat) (hi : i < 8), b < 8 → s.W.getLsbD (8 * i + b) = s.frame[i].getLsbD b) ∧
    (∀ k : Fin 64, s.F k = s.frame[7 - k.val / 8].getLsbD (k.val % 8)) ∧
    (∀ k : Fin 64, s.F k = s.W.getLsbD (8 * (7 - k.val / 8) + k.val % 8))

/-- R122: the i-th bit sent is W[63 - i], bit 7 - (i mod 8) of byte 7 - (i div 8), segment 8*(i div 8) + 7 - (i mod 8). -/
def Obligations.BitOrderOnTheWire : Prop :=
  ∀ (s : State) (i : Nat) (h : i ≤ 63),
    microDrive s.W (1 + 3 * i) = some ⟨.sdata, s.W.getLsbD (63 - i)⟩ ∧
    s.W.getLsbD (63 - i) = s.frame[7 - i / 8].getLsbD (7 - i % 8) ∧
    s.W.getLsbD (63 - i) = s.F ⟨8 * (i / 8) + 7 - i % 8, by omega⟩

/-! ## The frame-write instructions -/

/-- R101: the word, the write of one segment, the rejection, and everything else unchanged. -/
def Obligations.EnableSetsOneSegment : Prop :=
  ∀ (seg : Byte) (s : State),
    decode .idle (0x0100 + seg.setWidth 16) = .ok (.enable seg) ∧
    (seg.toNat < 64 → ∃ t, exec (.enable seg) s = .next t ∧
      WritesOneSegment seg true s t ∧ t = { s with frame := t.frame }) ∧
    (64 ≤ seg.toNat → exec (.enable seg) s = .next { s with faultRange := true })

/-- R108: the word, the write of one segment, the rejection, and everything else unchanged. -/
def Obligations.DisableClearsOneSegment : Prop :=
  ∀ (seg : Byte) (s : State),
    decode .idle (0x0400 + seg.setWidth 16) = .ok (.disable seg) ∧
    (seg.toNat < 64 → ∃ t, exec (.disable seg) s = .next t ∧
      WritesOneSegment seg false s t ∧ t = { s with frame := t.frame }) ∧
    (64 ≤ seg.toNat → exec (.disable seg) s = .next { s with faultRange := true })

/-- R103: the header loads LISTREM and enters LIST, or does nothing at COUNT = 0; it faults never and writes no frame bit. -/
def Obligations.DisableManyHeaderBeginsAList : Prop :=
  ∀ (count : Byte) (s : State),
    decode .idle (0x0200 + count.setWidth 16) = .ok (.disableMany count) ∧
    (count = 0 → exec (.disableMany count) s = .next s) ∧
    (count ≠ 0 → exec (.disableMany count) s = .next { s with listRem := count, mode := .list })

/-- R104, every word accepted in LIST. With a zero upper byte it is .SEG: the bit is cleared, or RangeFault raised. With a
nonzero one it raises IllegalFault alone and is not examined further. It counts as one element in all three cases. -/
def Obligations.ListElementClearsAndCounts : Prop :=
  (∀ (seg : Byte) (s : State), s.mode = .list → 1 ≤ s.listRem.toNat →
    decode .list (0x0000 + seg.setWidth 16) = .ok (.seg seg) ∧
    ∃ t, exec (.seg seg) s = .next t ∧
      t.listRem.toNat = s.listRem.toNat - 1 ∧
      t.mode = (if s.listRem.toNat = 1 then .idle else .list) ∧
      (seg.toNat < 64 → WritesOneSegment seg false s t ∧
        t = { s with frame := t.frame, listRem := t.listRem, mode := t.mode }) ∧
      (64 ≤ seg.toNat → t = { s with faultRange := true, listRem := t.listRem, mode := t.mode })) ∧
  (∀ (s : State) (w : CmdWord) (rest : List Input), s.mode = .list → 1 ≤ s.listRem.toNat → s.inputs = .word w :: rest →
    w.toNat / 256 ≠ 0 →
    ∃ t, step s = .next t ∧
      t.listRem.toNat = s.listRem.toNat - 1 ∧
      t.mode = (if s.listRem.toNat = 1 then .idle else .list) ∧
      t = { s with inputs := rest, faultIllegal := true, listRem := t.listRem, mode := t.mode })

/-- R106: all 64 bits zero for any prior frame; nothing else changes, the fault flags included; the word 0x0300
is DISABLE_ALL, and the words 0x0301 to 0x03FF are illegal. -/
def Obligations.DisableAllClearsTheFrame : Prop :=
  (∀ w : CmdWord, decode .idle w = .ok .disableAll ↔ w = 0x0300) ∧
  (∀ w : CmdWord, w.toNat / 256 = 3 → w ≠ 0x0300 → ∃ e, decode .idle w = .error e) ∧
  ∀ s : State, ∃ t, exec .disableAll s = .next t ∧
    (∀ i : Fin 8, t.frame[i] = 0x00) ∧ t.W = 0 ∧ (∀ u : Fin 64, t.F u = false) ∧ t = { s with frame := t.frame }

/-- The accept step of TRANSMIT (41_transmit.md section 1): it enters SHIFT at micro-step 0, drives no pin and writes nothing
else; only the word 0x0500 is TRANSMIT. -/
def Obligations.TransmitAcceptEntersShift : Prop :=
  (∀ w : CmdWord, decode .idle w = .ok .transmit ↔ w = 0x0500) ∧
  ∀ s : State, exec .transmit s = .next { s with mode := .shift, txStep := 0 }

/-- The frame of every instruction but TRANSMIT (40_frame_write.md section 1): no pin, no transmit state, nothing of the
environment and nothing of the schedule changes, and IllegalFault is never raised. -/
def Obligations.FrameWritesLeavePinsAndChainAlone : Prop :=
  ∀ (i : Instr) (s t : State), i ≠ .transmit → exec i s = .next t →
    t.txStep = s.txStep ∧ t.sdata = s.sdata ∧ t.sclk = s.sclk ∧ t.slatch = s.slatch ∧ t.sr = s.sr ∧ t.out = s.out ∧
    t.hven = s.hven ∧ t.inputs = s.inputs ∧ t.faultIllegal = s.faultIllegal

/-- The frame of the instructions that store nothing (10_state.md section 2, the access table): DISABLE_MANY and TRANSMIT,
and every instruction whose segment operand is 64 or more, leave every segment as it was. -/
def Obligations.StoringNothingLeavesEverySegment : Prop :=
  ∀ (i : Instr) (s t : State), exec i s = .next t →
    ((∃ n, i = .disableMany n) ∨ i = .transmit ∨
      ∃ g : Byte, 64 ≤ g.toNat ∧ (i = .enable g ∨ i = .disable g ∨ i = .seg g)) →
    ∀ u : Fin 64, t.F u = s.F u

/-- Writes to different segments commute (40_frame_write.md section 7, law (e); the spec derives it). -/
def Obligations.WritesToDifferentSegmentsCommute : Prop :=
  ∀ (v w : Bool) (a b : Byte) (s : State), a ≠ b →
    ∃ p q r, exec (segInstr v a) s = .next p ∧ exec (segInstr w b) p = .next r ∧
      exec (segInstr w b) s = .next q ∧ exec (segInstr v a) q = .next r

/-- The last write to a segment wins, and a repeated write changes nothing more (40_frame_write.md section 7, law (d), and
20_memory.md section 4; the spec derives both). -/
def Obligations.LastWriteToASegmentWins : Prop :=
  ∀ (v w : Bool) (a : Byte) (s : State),
    ∃ p r, exec (segInstr v a) s = .next p ∧ exec (segInstr w a) p = .next r ∧ exec (segInstr w a) s = .next r

/-- DISABLE_MANY n and its n elements equal n DISABLE words (40_frame_write.md section 4; the spec derives it): offered as
words to the command port in IDLE, both streams end in the same state. That run is clean (R148: no fault flag set, before and
after) exactly when it starts clean and every operand is a segment. -/
def Obligations.DisableManyEqualsRepeatedDisable : Prop :=
  ∀ (l : List Byte) (s : State), l ≠ [] → l.length ≤ 255 → s.mode = .idle → s.listRem = 0 →
    ∃ t : State, t.mode = .idle ∧ t.inputs = [] ∧ (t.Clean ↔ s.Clean ∧ ∀ g ∈ l, g.toNat < 64) ∧
      Sys2Proof.core.run (l.length + 1)
        { s with inputs := (encodeStream (Pseudo.disableList l).expand).map Input.word } = .next t ∧
      Sys2Proof.core.run l.length { s with inputs := (encodeStream (l.map Instr.disable)).map Input.word } = .next t

/-! ## Faults -/

/-- R141: RangeFault of the three instructions that have a segment operand. -/
def Obligations.OutOfRangeSegmentIsRejected : Prop :=
  ∀ (seg : Byte) (s : State), 64 ≤ seg.toNat →
    exec (.enable seg) s = .next { s with faultRange := true } ∧
    exec (.disable seg) s = .next { s with faultRange := true } ∧
    (s.mode = .list → 1 ≤ s.listRem.toNat →
      exec (.seg seg) s = .next { s with
        faultRange := true
        listRem := s.listRem - 1
        mode := if s.listRem = 1 then .idle else .list })

/-- R142: IllegalFault of every word that R79 lists, in IDLE and in LIST. -/
def Obligations.IllegalWordIsRejected : Prop :=
  ∀ (s : State) (w : CmdWord) (rest : List Input), s.inputs = .word w :: rest →
    (s.mode = .idle →
      (w.toNat / 256 = 0 ∨ 6 ≤ w.toNat / 256 ∨ (w.toNat / 256 = 3 ∧ w.toNat % 256 ≠ 0) ∨
        (w.toNat / 256 = 5 ∧ w.toNat % 256 ≠ 0)) →
      step s = .next { s with inputs := rest, faultIllegal := true }) ∧
    (s.mode = .list → 1 ≤ s.listRem.toNat → w.toNat / 256 ≠ 0 →
      step s = .next { s with
        inputs := rest
        faultIllegal := true
        listRem := s.listRem - 1
        mode := if s.listRem = 1 then .idle else .list })

/-- 10_state.md section 4 and 60_exceptions.md sections 4 and 5: exactly which step sets a fault flag; only RST clears one, and no step sets both. -/
def Obligations.FaultFlagsAreSetByBadWordsAndClearedByReset : Prop :=
  ∀ s t : State, step s = .next t →
    (s.nextMove = .reset → t.faultRange = false ∧ t.faultIllegal = false) ∧
    (s.nextMove ≠ .reset →
      (t.faultRange = true ↔ s.faultRange = true ∨
        ∃ (w : CmdWord) (g : Byte), s.nextMove = .accept w ∧ 64 ≤ g.toNat ∧
          (decode s.mode w = .ok (.enable g) ∨ decode s.mode w = .ok (.disable g) ∨ decode s.mode w = .ok (.seg g))) ∧
      (t.faultIllegal = true ↔ s.faultIllegal = true ∨
        ∃ (w : CmdWord) (e : Illegal), s.nextMove = .accept w ∧ decode s.mode w = .error e)) ∧
    (s.faultRange = false → s.faultIllegal = false → ¬(t.faultRange = true ∧ t.faultIllegal = true))

/-- R147, last sentence: the flags change the behaviour of no later step. Two states that differ in the flags alone step to
states that differ in the flags alone. -/
def Obligations.FaultFlagsChangeNoBehaviour : Prop :=
  ∀ (s t : State) (a b : Bool), step s = .next t →
    ∃ c d, step { s with faultRange := a, faultIllegal := b } = .next { t with faultRange := c, faultIllegal := d }

/-- R22: the status vector bit by bit, the FAULT pin, and BUSY and LIST never both 1. -/
def Obligations.StatusVectorBits : Prop :=
  ∀ s : State,
    s.status.getLsbD 0 = decide (s.mode = .shift) ∧
    s.status.getLsbD 1 = decide (s.mode = .list) ∧
    s.status.getLsbD 2 = s.faultRange ∧
    s.status.getLsbD 3 = s.faultIllegal ∧
    (∀ j, 4 ≤ j → s.status.getLsbD j = false) ∧
    s.fault = (s.faultRange || s.faultIllegal) ∧
    s.busy = s.status.getLsbD 0 ∧
    ¬(s.status.getLsbD 0 = true ∧ s.status.getLsbD 1 = true)

/-! ## The command port and the moves -/

/-- A step runs the decoded instruction: an accepted word that decodes to `i` in the present MODE makes the step `exec i`,
after the word is taken off the schedule. -/
def Obligations.StepRunsTheDecodedInstruction : Prop :=
  ∀ (s : State) (w : CmdWord) (rest : List Input) (i : Instr),
    s.mode ≠ .shift → s.inputs = .word w :: rest → decode s.mode w = .ok i →
    step s = exec i { s with inputs := rest }

/-- 10_state.md section 6: CMD_READY, the accept, and a word offered during SHIFT, which is not consumed and on which nothing
depends. That RST is asserted exactly where the head of the schedule is a reset, which the first clause says, is the model's
choice (DESIGN CHOICE, log 7). -/
def Obligations.CommandPortHandshake : Prop :=
  ∀ s : State,
    (s.cmdReady = true ↔ s.mode ≠ .shift ∧ ∀ rest, s.inputs ≠ .reset :: rest) ∧
    (∀ w, s.nextMove = .accept w ↔ s.cmdReady = true ∧ s.cmdValid = true ∧ s.cmdWord? = some w) ∧
    (s.mode = .shift → ∀ (w : CmdWord) (rest : List Input) (t : State), step { s with inputs := [] } = .next t →
      step { s with inputs := .word w :: rest } = .next { t with inputs := .word w :: rest })

/-- 70_reset_and_hazards.md section 5, the four moves. R191 says which moves are enabled; which of them is made next is decided
here by the head of the schedule, the model's own choice (DESIGN CHOICE, log 2). -/
def Obligations.MovesAreAcceptMicroStepResetHven : Prop :=
  ∀ s : State,
    (∀ w, s.nextMove = .accept w ↔ s.mode ≠ .shift ∧ ∃ rest, s.inputs = .word w :: rest) ∧
    (s.nextMove = .microStep ↔ s.mode = .shift ∧ (∀ rest, s.inputs ≠ .reset :: rest) ∧ ∀ l rest, s.inputs ≠ .hven l :: rest) ∧
    (s.nextMove = .reset ↔ ∃ rest, s.inputs = .reset :: rest) ∧
    (∀ l, s.nextMove = .hven l ↔ ∃ rest, s.inputs = .hven l :: rest) ∧
    (∀ l rest, s.inputs = .hven l :: rest → step s = .next { s with hven := l, inputs := rest })

/-- R17: every transition of MODE. In LIST the statement needs I-a (LISTREM at least 1), which is kept by
StepKeepsSequencerInvariant. -/
def Obligations.ModeTransitions : Prop :=
  ∀ s t : State, step s = .next t →
    (s.nextMove = .reset → t.mode = .idle) ∧
    (∀ w, s.nextMove = .accept w → s.mode = .idle →
      t.mode = match decode .idle w with
        | .ok (.disableMany n) => if n = 0 then .idle else .list
        | .ok .transmit => .shift
        | _ => .idle) ∧
    (∀ w, s.nextMove = .accept w → s.mode = .list → 1 ≤ s.listRem.toNat →
      t.mode = if s.listRem.toNat = 1 then .idle else .list) ∧
    (s.nextMove = .microStep → s.mode = .shift ∧ t.mode = if s.txStep.toNat = 193 then .idle else .shift) ∧
    ((∀ w, s.nextMove ≠ .accept w) → s.nextMove ≠ .microStep → s.nextMove ≠ .reset → t.mode = s.mode)

/-- R18: LISTREM is loaded by a header, counts down by one for every accepted element whatever its bits, never wraps, and is
0 whenever MODE is not LIST. -/
def Obligations.ListRemCountsDownOnly : Prop :=
  ∀ s t : State, s.Inv → step s = .next t →
    (t.mode ≠ .list → t.listRem = 0) ∧
    (∀ w, s.nextMove = .accept w → s.mode = .list → t.listRem.toNat + 1 = s.listRem.toNat) ∧
    (∀ w n, s.nextMove = .accept w → s.mode = .idle → decode .idle w = .ok (.disableMany n) → t.listRem = n) ∧
    ((∀ w, s.nextMove ≠ .accept w) → s.nextMove ≠ .reset → t.listRem = s.listRem)

/-- R19: TXSTEP is 0 outside SHIFT, goes up by 1 at each micro-step, back to 0 at the one at 193, and never exceeds 193. -/
def Obligations.TxStepCountsMicroSteps : Prop :=
  ∀ s t : State, s.Inv → step s = .next t →
    t.txStep.toNat ≤ 193 ∧
    (t.mode ≠ .shift → t.txStep.toNat = 0) ∧
    (s.nextMove = .microStep → t.txStep.toNat = if s.txStep.toNat = 193 then 0 else s.txStep.toNat + 1)

/-- When the machine stops, and on what: only where no move of the spec exists (logs 4 and 5: naming the two ends as faults
is the model's choice); from a state of the invariant never for want of a micro-step; and it never refuses. -/
def Obligations.MachineStopsOnlyWhereNoMoveExists : Prop :=
  ∀ s : State,
    (step s = .fault .streamEnded ↔ s.Ended) ∧
    (step s = .fault .stuckInList ↔ s.Stuck) ∧
    (s.Inv → step s ≠ .fault .noSuchMicroStep) ∧
    (∀ r, step s ≠ .refused r)

/-! ## TRANSMIT -/

/-- R121: the micro-steps by TXSTEP, each with its pin, the environment's reaction to a rising edge, and the next TXSTEP. -/
def Obligations.MicroStepsInOrder : Prop :=
  ∀ s : State, s.nextMove = .microStep →
    (s.txStep.toNat = 0 → step s = .next { s with inputs := s.inputsAfter, slatch := false, txStep := 1 }) ∧
    (∀ i, i ≤ 63 → s.txStep.toNat = 1 + 3 * i →
      step s = .next { s with
        inputs := s.inputsAfter
        sdata := s.W.getLsbD (63 - i)
        txStep := BitVec.ofNat 8 (2 + 3 * i) }) ∧
    (∀ i, i ≤ 63 → s.txStep.toNat = 2 + 3 * i →
      step s = .next { s with
        inputs := s.inputsAfter
        sclk := true
        sr := if s.sclk = false then s.sr.extractLsb' 0 63 ++ BitVec.ofBool s.sdata else s.sr
        txStep := BitVec.ofNat 8 (3 + 3 * i) }) ∧
    (∀ i, i ≤ 63 → s.txStep.toNat = 3 + 3 * i →
      step s = .next { s with inputs := s.inputsAfter, sclk := false, txStep := BitVec.ofNat 8 (4 + 3 * i) }) ∧
    (s.txStep.toNat = 193 →
      step s = .next { s with
        inputs := s.inputsAfter
        slatch := true
        out := if s.slatch = false then s.sr else s.out
        txStep := 0
        mode := .idle })

/-- The macro-step view (41_transmit.md section 3; the spec derives it): 194 steps with no reset are one atomic step, whatever
words the host offers meanwhile; they stay offered. -/
def Obligations.TransmitIsOneMacroStep : Prop :=
  ∀ (s : State) (stream : List CmdWord), s.mode = .shift → s.txStep = 0 → s.sclk = false → s.inputs = stream.map .word →
    Sys2Proof.core.run 194 s = .next { s with
      mode := .idle
      txStep := 0
      sdata := s.W.getLsbD 0
      sclk := false
      slatch := true
      sr := s.W
      out := s.W }

/-- The chain after k clock edges (41_transmit.md section 3; the spec derives it): the low k stages hold the top k bits of W in
order, the rest is old content moved up, and OUT still holds the previous frame, whatever words the host offers meanwhile. -/
def Obligations.ChainAfterEachClockEdge : Prop :=
  ∀ (s : State) (stream : List CmdWord) (k : Nat), s.mode = .shift → s.txStep = 0 → s.sclk = false →
    s.inputs = stream.map .word → k ≤ 64 →
    ∃ t : State, Sys2Proof.core.run (3 * k) s = .next t ∧ t.out = s.out ∧ t.frame = s.frame ∧
      ∀ j, j < 64 → t.sr.getLsbD j = if j < k then s.W.getLsbD (64 - k + j) else s.sr.getLsbD (j - k)

/-- The pin trace of one transmit (41_transmit.md section 2; the spec derives it): exactly these 194 drives,
whatever words the host offers meanwhile. -/
def Obligations.PinTraceOfOneTransmit : Prop :=
  ∀ (s : State) (stream : List CmdWord), s.mode = .shift → s.txStep = 0 → s.inputs = stream.map .word →
    pinTrace 194 s =
      ⟨.slatch, false⟩ ::
        ((List.range 64).flatMap fun i => [⟨.sdata, s.W.getLsbD (63 - i)⟩, ⟨.sclk, true⟩, ⟨.sclk, false⟩]) ++
        [⟨.slatch, true⟩]

/-- Progress (41_transmit.md section 4): SHIFT is left after exactly 194 - TXSTEP micro-steps and not before, whatever the host
offers meanwhile. -/
def Obligations.TransmitAlwaysCompletes : Prop :=
  ∀ (s : State) (stream : List CmdWord), s.mode = .shift → s.txStep.toNat ≤ 193 → s.inputs = stream.map .word →
    (∃ t : State, Sys2Proof.core.run (194 - s.txStep.toNat) s = .next t ∧ t.mode = .idle ∧ t.inputs = s.inputs ∧
      t.frame = s.frame ∧ (t.Clean ↔ s.Clean)) ∧
    ∀ m, m < 194 - s.txStep.toNat → ∃ u : State, Sys2Proof.core.run m s = .next u ∧ u.mode = .shift

/-- No step but a micro-step or a reset changes a pin (10_state.md section 6), and so none but these changes the chain or the
latch (10_state.md section 7: the ideal chain and latch, PRESUMED, log 14). -/
def Obligations.OnlyTransmitAndResetDrivePins : Prop :=
  ∀ s t : State, step s = .next t → s.nextMove ≠ .microStep → s.nextMove ≠ .reset →
    t.sdata = s.sdata ∧ t.sclk = s.sclk ∧ t.slatch = s.slatch ∧ t.sr = s.sr ∧ t.out = s.out

/-- R27: SR moves one stage at every rising edge of SCLK and at no other step. -/
def Obligations.ChainShiftsExactlyOnClockRise : Prop :=
  ∀ s t : State, step s = .next t →
    (s.sclk = false ∧ t.sclk = true →
      t.sr.getLsbD 0 = s.sdata ∧ ∀ k, k ≤ 62 → t.sr.getLsbD (k + 1) = s.sr.getLsbD k) ∧
    (¬(s.sclk = false ∧ t.sclk = true) → t.sr = s.sr)

/-- R28: OUT takes SR at every rising edge of SLATCH and changes at no other step. -/
def Obligations.LatchLoadsExactlyOnLatchRise : Prop :=
  ∀ s t : State, step s = .next t →
    (s.slatch = false ∧ t.slatch = true → t.out = s.sr) ∧
    (¬(s.slatch = false ∧ t.slatch = true) → t.out = s.out)

/-- SCLK never rises while SLATCH is 1 (41_transmit.md section 3; the spec derives it). -/
def Obligations.ClockRisesOnlyWithLatchLow : Prop :=
  ∀ s t : State, s.Inv → step s = .next t → s.sclk = false → t.sclk = true → s.slatch = false ∧ t.slatch = false

/-- The frame is unchanged from the step that enters SHIFT to the step that leaves it (10_state.md section 3, I-g; the spec
derives it): in SHIFT only a reset writes the frame. -/
def Obligations.FrameIsStableDuringShift : Prop :=
  ∀ s t : State, step s = .next t → s.mode = .shift → s.nextMove ≠ .reset → t.frame = s.frame

/-! ## Invariants -/

/-- The invariants hold after power-on reset, for every draw of SR and OUT and every schedule. -/
def Obligations.InvariantsHoldAtPowerOn : Prop :=
  ∀ (sr0 out0 : Word64) (inputs : List Input),
    ({ State.powerOn sr0 out0 with inputs := inputs } : State).Inv ∧
    ({ State.powerOn sr0 out0 with inputs := inputs } : State).ChainInv

/-- I-a to I-f of 10_state.md section 3 (the spec derives them; I-f in both directions, log 15) are kept by every step
from every state that meets them. -/
def Obligations.StepKeepsSequencerInvariant : Prop :=
  ∀ s t : State, s.Inv → step s = .next t → t.Inv

/-- The chain invariant is kept by every step. State.ChainInv is the model's own form of what 41_transmit.md section 3 says of
the chain in the middle of a transmit (DEDUCED, log 15). -/
def Obligations.StepKeepsChainInvariant : Prop :=
  ∀ s t : State, s.Inv → s.ChainInv → step s = .next t → t.ChainInv

/-- No partial frame is ever visible (41_transmit.md section 3; the spec derives it): whenever OUT changes, a transmit has just
completed and OUT is the whole frame it sent. -/
def Obligations.OnlyWholeFramesReachTheLatch : Prop :=
  ∀ s t : State, s.Inv → s.ChainInv → step s = .next t → t.out ≠ s.out →
    s.mode = .shift ∧ s.txStep.toNat = 193 ∧ t.mode = .idle ∧ t.slatch = true ∧ t.out = s.W ∧ t.W = s.W

/-! ## Reset, startup, runs -/

/-- The effect of RST from any state, as one step (70_reset_and_hazards.md section 1); the environment is not written. CMD_READY
is 0 while RST is asserted: that RST is asserted exactly in the state whose next input is a reset is the model's choice
(DESIGN CHOICE, log 7). -/
def Obligations.ResetEffect : Prop :=
  ∀ (s : State) (rest : List Input), s.inputs = .reset :: rest →
    s.cmdReady = false ∧
    ∃ t, step s = .next t ∧ t.cmdReady = !t.rst ∧
      (∀ i : Fin 8, t.frame[i] = 0x00) ∧ t.mode = .idle ∧ t.listRem = 0 ∧ t.txStep = 0 ∧
      t.faultRange = false ∧ t.faultIllegal = false ∧ t.sdata = false ∧ t.sclk = false ∧ t.slatch = false ∧
      t.sr = s.sr ∧ t.out = s.out ∧ t.hven = s.hven ∧ t.inputs = rest

/-- R32: the values after RST. At power-on, for every draw of SR and OUT, with HVEN = 0; and after RST from any state, with
SR, OUT and HVEN as they were. CMD_READY is 1 once RST is released. -/
def Obligations.ValuesAfterReset : Prop :=
  (∀ sr0 out0 : Word64, ∀ s : State, s = State.powerOn sr0 out0 →
    s.ResetValues ∧ s.cmdReady = true ∧ s.hven = false ∧ s.sr = sr0 ∧ s.out = out0) ∧
  (∀ s t : State, step s = .next t → s.nextMove = .reset →
    t.ResetValues ∧ (t.rst = false → t.cmdReady = true) ∧ t.hven = s.hven ∧ t.sr = s.sr ∧ t.out = s.out)

/-- Why the startup sequence works (70_reset_and_hazards.md section 2; the spec derives it): DISABLE_ALL, then TRANSMIT, then its
194 micro-steps leave the frame, the chain and the latch zero whatever they held; and while HVEN is 0 nothing glows on the
way. The sequence is clean exactly when it starts clean (R148). -/
def Obligations.StartupBlanksTheDisplay : Prop :=
  ∀ s : State, s.sclk = false →
    ∃ a b c : State, exec .disableAll s = .next a ∧ exec .transmit a = .next b ∧ microSteps 194 b = .next c ∧
      c.mode = .idle ∧ c.W = 0 ∧ c.sr = 0 ∧ c.out = 0 ∧ (∀ k, c.glows k = false) ∧ (c.Clean ↔ s.Clean) ∧
      (s.hven = false → ∀ n u, microSteps n b = .next u → ∀ k, u.glows k = false)

/-- After a completed transmit a segment glows iff HVEN = 1 and its frame bit was 1 (10_state.md section 7 with 41_transmit.md
section 3), whatever words the host offers meanwhile. -/
def Obligations.CompletedTransmitShowsTheFrame : Prop :=
  ∀ (s : State) (stream : List CmdWord), s.mode = .shift → s.txStep = 0 → s.sclk = false → s.inputs = stream.map .word →
    ∃ t : State, Sys2Proof.core.run 194 s = .next t ∧ ∀ k : Fin 64, t.glows k = (s.hven && s.F k)

/-- Only committed frames glow (10_state.md section 7, 70_reset_and_hazards.md section 2): in every run from power-on, with any
schedule, any draw, and HVEN kept 0 until the first commit, what glows is the last value of the display history. -/
def Obligations.OnlyCommittedFramesGlow : Prop :=
  ∀ (sr0 out0 : Word64) (inputs : List Input) (n : Nat) (t : State),
    Sys2Proof.core.run n { State.powerOn sr0 out0 with inputs := inputs } = .next t →
    darkUntilCommit n { State.powerOn sr0 out0 with inputs := inputs } = true →
    ∀ k : Fin 64, t.glows k = true →
      ∃ w, (displayHistory n { State.powerOn sr0 out0 with inputs := inputs }).getLast? = some w ∧
        w.getLsbD (wpos k).val = true

/-- Every run of a finite stream reaches its end or the stuck state (70_reset_and_hazards.md section 5), after at most one move
for each input, 194 for each TRANSMIT word, and the rest of a transmit in progress. -/
def Obligations.FiniteStreamReachesItsEnd : Prop :=
  ∀ s : State, s.Inv →
    ∃ (n : Nat) (t : State), n ≤ s.movesLeft ∧ Sys2Proof.core.run n s = .next t ∧ (t.Ended ∨ t.Stuck)

/-- Clean runs (60_exceptions.md section 5; R148 asks for both flags 0 before and after). A finite stream of words offered in IDLE
is used up within its bound, and from a clean state the run ends, clean, exactly when the stream is the encoding of a
well-formed one (every header followed by exactly its elements) whose segment operands are all below 64: every other stream
leaves a flag set or the machine stuck in LIST. -/
def Obligations.RunEndsCleanExactlyOnAGoodStream : Prop :=
  ∀ (s : State) (stream : List CmdWord), s.Inv → s.Clean → s.mode = .idle → s.inputs = stream.map .word →
    ∃ (n : Nat) (t : State), n ≤ s.movesLeft ∧ Sys2Proof.core.run n s = .next t ∧ (t.Ended ∨ t.Stuck) ∧
      ((t.Ended ∧ t.Clean) ↔
        ∃ l : List Instr, stream = encodeStream l ∧ streamWf l = true ∧ ∀ i ∈ l, i.inRange = true)

/-- A host that takes its indices from a table meeting the invariant of R8 never raises RangeFault, with any of the three
instructions that have a segment operand, and never addresses one frame bit under two names (00_scope.md section 7). -/
def Obligations.ValidTopologyNeverFaults : Prop :=
  ∀ (topo : Config.Topology), topo.Valid →
    (∀ e ∈ topo.entries, ∀ s : State, ∃ k : Fin 64, k.val = e ∧
      (∃ t, exec (.enable (BitVec.ofNat 8 e)) s = .next t ∧ t.faultRange = s.faultRange ∧ t.F k = true) ∧
      (∃ t, exec (.disable (BitVec.ofNat 8 e)) s = .next t ∧ t.faultRange = s.faultRange ∧ t.F k = false) ∧
      (∃ t, exec (.seg (BitVec.ofNat 8 e)) s = .next t ∧ t.faultRange = s.faultRange ∧ t.F k = false)) ∧
    topo.entries.length = 64 ∧ topo.entries.Nodup ∧
    ∀ a b : Fin 64, a.val ∈ topo.entries → b.val ∈ topo.entries → byteIdx a = byteIdx b → bitIdx a = bitIdx b → a = b
end

