-- ==== Sys2Proof/Laws/Decode.lean ====
section
/-! SUPPORT. The two fields of a word, and the decoder's cases as equations. -/

namespace Sys2Proof

@[simp] theorem opField_append (a b : Byte) : opField (a ++ b : CmdWord) = a := by
  apply BitVec.eq_of_getLsbD_eq
  intro i hi
  simp only [opField, BitVec.getLsbD_extractLsb', BitVec.getLsbD_append, hi, decide_true, Bool.true_and]
  rw [if_neg (by omega), Nat.add_sub_cancel_left]

@[simp] theorem argField_append (a b : Byte) : argField (a ++ b : CmdWord) = b := by
  apply BitVec.eq_of_getLsbD_eq
  intro i hi
  simp only [argField, BitVec.getLsbD_extractLsb', BitVec.getLsbD_append, hi, decide_true, Bool.true_and]
  rw [Nat.zero_add, if_pos hi]

/-- A word is its two fields (R70). -/
theorem fields_append (w : CmdWord) : (opField w ++ argField w : CmdWord) = w := by
  apply BitVec.eq_of_getLsbD_eq
  intro i hi
  rw [BitVec.getLsbD_append]
  by_cases h : i < 8
  · simp [argField, h]
  · have e : 8 + (i - 8) = i := by omega
    have l : i - 8 < 8 := by omega
    simp [opField, h, l, e]

theorem word_ext {v w : CmdWord} (ho : opField v = opField w) (ha : argField v = argField w) : v = w := by
  rw [← fields_append v, ← fields_append w, ho, ha]

/-- OP is the word div 256. -/
theorem opField_toNat (w : CmdWord) : (opField w).toNat = w.toNat / 256 := by
  simp only [opField, BitVec.extractLsb'_toNat, Nat.shiftRight_eq_div_pow]
  omega

/-- ARG is the word mod 256. -/
theorem argField_toNat (w : CmdWord) : (argField w).toNat = w.toNat % 256 := by
  simp only [argField, BitVec.extractLsb'_toNat, Nat.shiftRight_eq_div_pow]
  omega

theorem argField_eq (w : CmdWord) : argField w = BitVec.ofNat 8 (w.toNat % 256) := by
  rw [← argField_toNat]; simp

theorem opField_eq_iff (w : CmdWord) (n : Nat) (h : n < 256) : opField w = BitVec.ofNat 8 n ↔ w.toNat / 256 = n := by
  rw [← opField_toNat, ← BitVec.toNat_inj, BitVec.toNat_ofNat, Nat.mod_eq_of_lt h]

theorem argField_eq_iff (w : CmdWord) (n : Nat) (h : n < 256) : argField w = BitVec.ofNat 8 n ↔ w.toNat % 256 = n := by
  rw [← argField_toNat, ← BitVec.toNat_inj, BitVec.toNat_ofNat, Nat.mod_eq_of_lt h]

/-- A base word plus an operand is the opcode byte before the operand byte (R82, 'words emitted'). -/
theorem base_add_operand (op a : Byte) : (op ++ (0 : Byte) : CmdWord) + a.setWidth 16 = op ++ a := by
  apply BitVec.eq_of_toNat_eq
  have := op.isLt; have := a.isLt
  simp only [BitVec.ofNat_eq_ofNat, BitVec.toNat_add, BitVec.toNat_append, BitVec.toNat_setWidth, BitVec.toNat_ofNat,
    Nat.zero_mod]
  rw [← Nat.shiftLeft_add_eq_or_of_lt (by omega), ← Nat.shiftLeft_add_eq_or_of_lt (by omega), Nat.shiftLeft_eq]
  omega

/-- decode in LIST: what an accepted word is (R76). -/
theorem decodeList_ok_iff (w : CmdWord) (i : Instr) :
    decodeList w = .ok i ↔ opField w = 0x00 ∧ i = .seg (argField w) := by
  unfold decodeList; split <;> simp_all [@eq_comm Instr]

/-- decode in IDLE: what an accepted word is, one case for each IDLE row of R77. -/
theorem decodeIdle_ok_iff (w : CmdWord) (i : Instr) :
    decodeIdle w = .ok i ↔
      (opField w = 0x01 ∧ i = .enable (argField w)) ∨
      (opField w = 0x02 ∧ i = .disableMany (argField w)) ∨
      (opField w = 0x03 ∧ argField w = 0x00 ∧ i = .disableAll) ∨
      (opField w = 0x04 ∧ i = .disable (argField w)) ∨
      (opField w = 0x05 ∧ argField w = 0x00 ∧ i = .transmit) := by
  unfold decodeIdle
  repeat' split
  all_goals simp_all [@eq_comm Instr]

/-- A word is illegal in LIST iff its upper byte is not 0x00 (R79). -/
theorem decodeList_error_iff (w : CmdWord) : (∃ e, decodeList w = .error e) ↔ opField w ≠ 0x00 := by
  unfold decodeList; split <;> simp_all

/-- A word is illegal in IDLE iff it is in one of the first four rows of R79. -/
theorem decodeIdle_error_iff (w : CmdWord) :
    (∃ e, decodeIdle w = .error e) ↔
      w.toNat / 256 = 0 ∨ 6 ≤ w.toNat / 256 ∨ (w.toNat / 256 = 3 ∧ w.toNat % 256 ≠ 0) ∨
        (w.toNat / 256 = 5 ∧ w.toNat % 256 ≠ 0) := by
  have o := opField_eq_iff w
  have a := argField_eq_iff w 0 (by omega)
  constructor
  · rintro ⟨e, he⟩
    by_contra c
    have n : ∀ i, decodeIdle w ≠ .ok i := fun i h => by rw [h] at he; cases he
    simp only [ne_eq, decodeIdle_ok_iff, not_or, not_and] at n
    by_cases h3 : w.toNat / 256 = 3
    · exact (n .disableAll).2.2.1 ((o 3 (by omega)).2 h3) (a.2 (by omega)) rfl
    · by_cases h5 : w.toNat / 256 = 5
      · exact (n .transmit).2.2.2.2 ((o 5 (by omega)).2 h5) (a.2 (by omega)) rfl
      · have : w.toNat / 256 = 1 ∨ w.toNat / 256 = 2 ∨ w.toNat / 256 = 4 := by omega
        rcases this with h | h | h
        · exact (n (.enable (argField w))).1 ((o 1 (by omega)).2 h) rfl
        · exact (n (.disableMany (argField w))).2.1 ((o 2 (by omega)).2 h) rfl
        · exact (n (.disable (argField w))).2.2.2.1 ((o 4 (by omega)).2 h) rfl
  · intro h
    cases e : decodeIdle w with
    | error x => exact ⟨x, rfl⟩
    | ok i =>
      exfalso
      rcases (decodeIdle_ok_iff w i).1 e with ⟨q, -⟩ | ⟨q, -⟩ | ⟨q, z, -⟩ | ⟨q, -⟩ | ⟨q, z, -⟩
      · have := (o 1 (by omega)).1 q; omega
      · have := (o 2 (by omega)).1 q; omega
      · have := (o 3 (by omega)).1 q; have := a.1 z; omega
      · have := (o 4 (by omega)).1 q; omega
      · have := (o 5 (by omega)).1 q; have := a.1 z; omega

/-- The row's MODE is the MODE its own word is read in by the table reader (log 8). -/
theorem tableMode_encode (i : Instr) : tableMode (encode i) = i.readMode := by
  cases i <;> simp [tableMode, encode, Instr.readMode] <;> decide

end Sys2Proof
end

