-- ==== Sys2Proof/Laws/State.lean ====
section
/-! SUPPORT. For each named operation, what every field of State is afterwards: one lemma a field, so that no later proof
unfolds a record update. -/

namespace Sys2Proof.Machine

/-! ### memWrite writes the frame only (R49) -/

@[simp] theorem memWrite_mode (k : Fin 64) (v : Bool) (s : State) : (memWrite k v s).mode = s.mode := rfl
@[simp] theorem memWrite_listRem (k : Fin 64) (v : Bool) (s : State) : (memWrite k v s).listRem = s.listRem := rfl
@[simp] theorem memWrite_txStep (k : Fin 64) (v : Bool) (s : State) : (memWrite k v s).txStep = s.txStep := rfl
@[simp] theorem memWrite_faultRange (k : Fin 64) (v : Bool) (s : State) : (memWrite k v s).faultRange = s.faultRange := rfl
@[simp] theorem memWrite_faultIllegal (k : Fin 64) (v : Bool) (s : State) : (memWrite k v s).faultIllegal = s.faultIllegal := rfl
@[simp] theorem memWrite_sdata (k : Fin 64) (v : Bool) (s : State) : (memWrite k v s).sdata = s.sdata := rfl
@[simp] theorem memWrite_sclk (k : Fin 64) (v : Bool) (s : State) : (memWrite k v s).sclk = s.sclk := rfl
@[simp] theorem memWrite_slatch (k : Fin 64) (v : Bool) (s : State) : (memWrite k v s).slatch = s.slatch := rfl
@[simp] theorem memWrite_sr (k : Fin 64) (v : Bool) (s : State) : (memWrite k v s).sr = s.sr := rfl
@[simp] theorem memWrite_out (k : Fin 64) (v : Bool) (s : State) : (memWrite k v s).out = s.out := rfl
@[simp] theorem memWrite_hven (k : Fin 64) (v : Bool) (s : State) : (memWrite k v s).hven = s.hven := rfl
@[simp] theorem memWrite_inputs (k : Fin 64) (v : Bool) (s : State) : (memWrite k v s).inputs = s.inputs := rfl

/-! ### clearFrame writes the frame only (R106) -/

@[simp] theorem clearFrame_mode (s : State) : (clearFrame s).mode = s.mode := rfl
@[simp] theorem clearFrame_listRem (s : State) : (clearFrame s).listRem = s.listRem := rfl
@[simp] theorem clearFrame_txStep (s : State) : (clearFrame s).txStep = s.txStep := rfl
@[simp] theorem clearFrame_faultRange (s : State) : (clearFrame s).faultRange = s.faultRange := rfl
@[simp] theorem clearFrame_faultIllegal (s : State) : (clearFrame s).faultIllegal = s.faultIllegal := rfl
@[simp] theorem clearFrame_sdata (s : State) : (clearFrame s).sdata = s.sdata := rfl
@[simp] theorem clearFrame_sclk (s : State) : (clearFrame s).sclk = s.sclk := rfl
@[simp] theorem clearFrame_slatch (s : State) : (clearFrame s).slatch = s.slatch := rfl
@[simp] theorem clearFrame_sr (s : State) : (clearFrame s).sr = s.sr := rfl
@[simp] theorem clearFrame_out (s : State) : (clearFrame s).out = s.out := rfl
@[simp] theorem clearFrame_hven (s : State) : (clearFrame s).hven = s.hven := rfl
@[simp] theorem clearFrame_inputs (s : State) : (clearFrame s).inputs = s.inputs := rfl
@[simp] theorem clearFrame_frame (s : State) : (clearFrame s).frame = Vector.replicate 8 0x00 := rfl

/-! ### raise writes one flag only (R141, R142) -/

@[simp] theorem raise_frame (f : BlockFault) (s : State) : (raise f s).frame = s.frame := by
  cases f <;> rfl
@[simp] theorem raise_mode (f : BlockFault) (s : State) : (raise f s).mode = s.mode := by
  cases f <;> rfl
@[simp] theorem raise_listRem (f : BlockFault) (s : State) : (raise f s).listRem = s.listRem := by
  cases f <;> rfl
@[simp] theorem raise_txStep (f : BlockFault) (s : State) : (raise f s).txStep = s.txStep := by
  cases f <;> rfl
@[simp] theorem raise_sdata (f : BlockFault) (s : State) : (raise f s).sdata = s.sdata := by
  cases f <;> rfl
@[simp] theorem raise_sclk (f : BlockFault) (s : State) : (raise f s).sclk = s.sclk := by
  cases f <;> rfl
@[simp] theorem raise_slatch (f : BlockFault) (s : State) : (raise f s).slatch = s.slatch := by
  cases f <;> rfl
@[simp] theorem raise_sr (f : BlockFault) (s : State) : (raise f s).sr = s.sr := by
  cases f <;> rfl
@[simp] theorem raise_out (f : BlockFault) (s : State) : (raise f s).out = s.out := by
  cases f <;> rfl
@[simp] theorem raise_hven (f : BlockFault) (s : State) : (raise f s).hven = s.hven := by
  cases f <;> rfl
@[simp] theorem raise_inputs (f : BlockFault) (s : State) : (raise f s).inputs = s.inputs := by
  cases f <;> rfl
@[simp] theorem raise_faultRange (f : BlockFault) (s : State) : (raise f s).faultRange = (s.faultRange || (f == .range)) := by
  cases f <;> simp [raise]
@[simp] theorem raise_faultIllegal (f : BlockFault) (s : State) : (raise f s).faultIllegal = (s.faultIllegal || (f == .illegal)) := by
  cases f <;> simp [raise]

/-! ### segWrite writes the frame or FAULT_RANGE only (R48) -/

@[simp] theorem segWrite_mode (seg : Byte) (v : Bool) (s : State) : (segWrite seg v s).mode = s.mode := by
  unfold segWrite; split <;> simp
@[simp] theorem segWrite_listRem (seg : Byte) (v : Bool) (s : State) : (segWrite seg v s).listRem = s.listRem := by
  unfold segWrite; split <;> simp
@[simp] theorem segWrite_txStep (seg : Byte) (v : Bool) (s : State) : (segWrite seg v s).txStep = s.txStep := by
  unfold segWrite; split <;> simp
@[simp] theorem segWrite_faultIllegal (seg : Byte) (v : Bool) (s : State) : (segWrite seg v s).faultIllegal = s.faultIllegal := by
  unfold segWrite; split <;> simp
@[simp] theorem segWrite_sdata (seg : Byte) (v : Bool) (s : State) : (segWrite seg v s).sdata = s.sdata := by
  unfold segWrite; split <;> simp
@[simp] theorem segWrite_sclk (seg : Byte) (v : Bool) (s : State) : (segWrite seg v s).sclk = s.sclk := by
  unfold segWrite; split <;> simp
@[simp] theorem segWrite_slatch (seg : Byte) (v : Bool) (s : State) : (segWrite seg v s).slatch = s.slatch := by
  unfold segWrite; split <;> simp
@[simp] theorem segWrite_sr (seg : Byte) (v : Bool) (s : State) : (segWrite seg v s).sr = s.sr := by
  unfold segWrite; split <;> simp
@[simp] theorem segWrite_out (seg : Byte) (v : Bool) (s : State) : (segWrite seg v s).out = s.out := by
  unfold segWrite; split <;> simp
@[simp] theorem segWrite_hven (seg : Byte) (v : Bool) (s : State) : (segWrite seg v s).hven = s.hven := by
  unfold segWrite; split <;> simp
@[simp] theorem segWrite_inputs (seg : Byte) (v : Bool) (s : State) : (segWrite seg v s).inputs = s.inputs := by
  unfold segWrite; split <;> simp
@[simp] theorem segWrite_faultRange (seg : Byte) (v : Bool) (s : State) : (segWrite seg v s).faultRange = (s.faultRange || decide (64 ≤ seg.toNat)) := by
  unfold segWrite segIndex?; split <;> rename_i h <;> split at h <;> simp_all

/-! ### loadList writes LISTREM and MODE only (R103) -/

@[simp] theorem loadList_frame (count : Byte) (s : State) : (loadList count s).frame = s.frame := by
  unfold loadList; split <;> rfl
@[simp] theorem loadList_txStep (count : Byte) (s : State) : (loadList count s).txStep = s.txStep := by
  unfold loadList; split <;> rfl
@[simp] theorem loadList_faultRange (count : Byte) (s : State) : (loadList count s).faultRange = s.faultRange := by
  unfold loadList; split <;> rfl
@[simp] theorem loadList_faultIllegal (count : Byte) (s : State) : (loadList count s).faultIllegal = s.faultIllegal := by
  unfold loadList; split <;> rfl
@[simp] theorem loadList_sdata (count : Byte) (s : State) : (loadList count s).sdata = s.sdata := by
  unfold loadList; split <;> rfl
@[simp] theorem loadList_sclk (count : Byte) (s : State) : (loadList count s).sclk = s.sclk := by
  unfold loadList; split <;> rfl
@[simp] theorem loadList_slatch (count : Byte) (s : State) : (loadList count s).slatch = s.slatch := by
  unfold loadList; split <;> rfl
@[simp] theorem loadList_sr (count : Byte) (s : State) : (loadList count s).sr = s.sr := by
  unfold loadList; split <;> rfl
@[simp] theorem loadList_out (count : Byte) (s : State) : (loadList count s).out = s.out := by
  unfold loadList; split <;> rfl
@[simp] theorem loadList_hven (count : Byte) (s : State) : (loadList count s).hven = s.hven := by
  unfold loadList; split <;> rfl
@[simp] theorem loadList_inputs (count : Byte) (s : State) : (loadList count s).inputs = s.inputs := by
  unfold loadList; split <;> rfl

/-! ### countElement writes LISTREM and MODE only (R104) -/

@[simp] theorem countElement_frame (s : State) : (countElement s).frame = s.frame := rfl
@[simp] theorem countElement_txStep (s : State) : (countElement s).txStep = s.txStep := rfl
@[simp] theorem countElement_faultRange (s : State) : (countElement s).faultRange = s.faultRange := rfl
@[simp] theorem countElement_faultIllegal (s : State) : (countElement s).faultIllegal = s.faultIllegal := rfl
@[simp] theorem countElement_sdata (s : State) : (countElement s).sdata = s.sdata := rfl
@[simp] theorem countElement_sclk (s : State) : (countElement s).sclk = s.sclk := rfl
@[simp] theorem countElement_slatch (s : State) : (countElement s).slatch = s.slatch := rfl
@[simp] theorem countElement_sr (s : State) : (countElement s).sr = s.sr := rfl
@[simp] theorem countElement_out (s : State) : (countElement s).out = s.out := rfl
@[simp] theorem countElement_hven (s : State) : (countElement s).hven = s.hven := rfl
@[simp] theorem countElement_inputs (s : State) : (countElement s).inputs = s.inputs := rfl
@[simp] theorem countElement_listRem (s : State) : (countElement s).listRem = listRemAfter s := rfl
@[simp] theorem countElement_mode (s : State) : (countElement s).mode = if listRemAfter s = 0 then .idle else s.mode := rfl

/-! ### drive writes its pin, and SR or OUT at a rising edge only (R23, R27, R28) -/

@[simp] theorem drive_frame (d : Drive) (s : State) : (drive d s).frame = s.frame := by
  rcases d with ⟨_ | _ | _, _⟩ <;> rfl
@[simp] theorem drive_mode (d : Drive) (s : State) : (drive d s).mode = s.mode := by
  rcases d with ⟨_ | _ | _, _⟩ <;> rfl
@[simp] theorem drive_listRem (d : Drive) (s : State) : (drive d s).listRem = s.listRem := by
  rcases d with ⟨_ | _ | _, _⟩ <;> rfl
@[simp] theorem drive_txStep (d : Drive) (s : State) : (drive d s).txStep = s.txStep := by
  rcases d with ⟨_ | _ | _, _⟩ <;> rfl
@[simp] theorem drive_faultRange (d : Drive) (s : State) : (drive d s).faultRange = s.faultRange := by
  rcases d with ⟨_ | _ | _, _⟩ <;> rfl
@[simp] theorem drive_faultIllegal (d : Drive) (s : State) : (drive d s).faultIllegal = s.faultIllegal := by
  rcases d with ⟨_ | _ | _, _⟩ <;> rfl
@[simp] theorem drive_hven (d : Drive) (s : State) : (drive d s).hven = s.hven := by
  rcases d with ⟨_ | _ | _, _⟩ <;> rfl
@[simp] theorem drive_inputs (d : Drive) (s : State) : (drive d s).inputs = s.inputs := by
  rcases d with ⟨_ | _ | _, _⟩ <;> rfl
@[simp] theorem drive_sdata (d : Drive) (s : State) : (drive d s).sdata = if d.pin = .sdata then d.level else s.sdata := by
  rcases d with ⟨_ | _ | _, _⟩ <;> rfl
@[simp] theorem drive_sclk (d : Drive) (s : State) : (drive d s).sclk = if d.pin = .sclk then d.level else s.sclk := by
  rcases d with ⟨_ | _ | _, _⟩ <;> rfl
@[simp] theorem drive_slatch (d : Drive) (s : State) : (drive d s).slatch = if d.pin = .slatch then d.level else s.slatch := by
  rcases d with ⟨_ | _ | _, _⟩ <;> rfl
@[simp] theorem drive_sr (d : Drive) (s : State) : (drive d s).sr = if d.pin = .sclk ∧ d.level = true ∧ s.sclk = false then shiftIn s.sr s.sdata else s.sr := by
  rcases d with ⟨_ | _ | _, _ | _⟩ <;> cases h : s.sclk <;> simp [drive, h]
@[simp] theorem drive_out (d : Drive) (s : State) : (drive d s).out = if d.pin = .slatch ∧ d.level = true ∧ s.slatch = false then s.sr else s.out := by
  rcases d with ⟨_ | _ | _, _ | _⟩ <;> cases h : s.slatch <;> simp [drive, h]

/-! ### applyReset gives every field of the block its reset value and leaves the environment alone (R171, R172) -/

@[simp] theorem applyReset_frame (s : State) : (applyReset s).frame = Vector.replicate 8 0x00 := rfl
@[simp] theorem applyReset_mode (s : State) : (applyReset s).mode = .idle := rfl
@[simp] theorem applyReset_listRem (s : State) : (applyReset s).listRem = 0 := rfl
@[simp] theorem applyReset_txStep (s : State) : (applyReset s).txStep = 0 := rfl
@[simp] theorem applyReset_faultRange (s : State) : (applyReset s).faultRange = false := rfl
@[simp] theorem applyReset_faultIllegal (s : State) : (applyReset s).faultIllegal = false := rfl
@[simp] theorem applyReset_sdata (s : State) : (applyReset s).sdata = false := rfl
@[simp] theorem applyReset_sclk (s : State) : (applyReset s).sclk = false := rfl
@[simp] theorem applyReset_slatch (s : State) : (applyReset s).slatch = false := rfl
@[simp] theorem applyReset_sr (s : State) : (applyReset s).sr = s.sr := by
  simp [applyReset, driveAll, resetDrives]
@[simp] theorem applyReset_out (s : State) : (applyReset s).out = s.out := by
  simp [applyReset, driveAll, resetDrives]
@[simp] theorem applyReset_hven (s : State) : (applyReset s).hven = s.hven := rfl
@[simp] theorem applyReset_inputs (s : State) : (applyReset s).inputs = s.inputs := rfl

/-! ### setHven writes HVEN only (R191) -/

@[simp] theorem setHven_frame (level : Bool) (s : State) : (setHven level s).frame = s.frame := rfl
@[simp] theorem setHven_mode (level : Bool) (s : State) : (setHven level s).mode = s.mode := rfl
@[simp] theorem setHven_listRem (level : Bool) (s : State) : (setHven level s).listRem = s.listRem := rfl
@[simp] theorem setHven_txStep (level : Bool) (s : State) : (setHven level s).txStep = s.txStep := rfl
@[simp] theorem setHven_faultRange (level : Bool) (s : State) : (setHven level s).faultRange = s.faultRange := rfl
@[simp] theorem setHven_faultIllegal (level : Bool) (s : State) : (setHven level s).faultIllegal = s.faultIllegal := rfl
@[simp] theorem setHven_sdata (level : Bool) (s : State) : (setHven level s).sdata = s.sdata := rfl
@[simp] theorem setHven_sclk (level : Bool) (s : State) : (setHven level s).sclk = s.sclk := rfl
@[simp] theorem setHven_slatch (level : Bool) (s : State) : (setHven level s).slatch = s.slatch := rfl
@[simp] theorem setHven_sr (level : Bool) (s : State) : (setHven level s).sr = s.sr := rfl
@[simp] theorem setHven_out (level : Bool) (s : State) : (setHven level s).out = s.out := rfl
@[simp] theorem setHven_inputs (level : Bool) (s : State) : (setHven level s).inputs = s.inputs := rfl
@[simp] theorem setHven_hven (level : Bool) (s : State) : (setHven level s).hven = level := rfl

/-! ### advanceTx writes TXSTEP and MODE only (R19) -/

@[simp] theorem advanceTx_frame (s : State) : (advanceTx s).frame = s.frame := by
  unfold advanceTx; split <;> rfl
@[simp] theorem advanceTx_listRem (s : State) : (advanceTx s).listRem = s.listRem := by
  unfold advanceTx; split <;> rfl
@[simp] theorem advanceTx_faultRange (s : State) : (advanceTx s).faultRange = s.faultRange := by
  unfold advanceTx; split <;> rfl
@[simp] theorem advanceTx_faultIllegal (s : State) : (advanceTx s).faultIllegal = s.faultIllegal := by
  unfold advanceTx; split <;> rfl
@[simp] theorem advanceTx_sdata (s : State) : (advanceTx s).sdata = s.sdata := by
  unfold advanceTx; split <;> rfl
@[simp] theorem advanceTx_sclk (s : State) : (advanceTx s).sclk = s.sclk := by
  unfold advanceTx; split <;> rfl
@[simp] theorem advanceTx_slatch (s : State) : (advanceTx s).slatch = s.slatch := by
  unfold advanceTx; split <;> rfl
@[simp] theorem advanceTx_sr (s : State) : (advanceTx s).sr = s.sr := by
  unfold advanceTx; split <;> rfl
@[simp] theorem advanceTx_out (s : State) : (advanceTx s).out = s.out := by
  unfold advanceTx; split <;> rfl
@[simp] theorem advanceTx_hven (s : State) : (advanceTx s).hven = s.hven := by
  unfold advanceTx; split <;> rfl
@[simp] theorem advanceTx_inputs (s : State) : (advanceTx s).inputs = s.inputs := by
  unfold advanceTx; split <;> rfl

/-! ### takeInput writes the schedule only -/

@[simp] theorem takeInput_frame (s : State) : s.takeInput.frame = s.frame := rfl
@[simp] theorem takeInput_mode (s : State) : s.takeInput.mode = s.mode := rfl
@[simp] theorem takeInput_listRem (s : State) : s.takeInput.listRem = s.listRem := rfl
@[simp] theorem takeInput_txStep (s : State) : s.takeInput.txStep = s.txStep := rfl
@[simp] theorem takeInput_faultRange (s : State) : s.takeInput.faultRange = s.faultRange := rfl
@[simp] theorem takeInput_faultIllegal (s : State) : s.takeInput.faultIllegal = s.faultIllegal := rfl
@[simp] theorem takeInput_sdata (s : State) : s.takeInput.sdata = s.sdata := rfl
@[simp] theorem takeInput_sclk (s : State) : s.takeInput.sclk = s.sclk := rfl
@[simp] theorem takeInput_slatch (s : State) : s.takeInput.slatch = s.slatch := rfl
@[simp] theorem takeInput_sr (s : State) : s.takeInput.sr = s.sr := rfl
@[simp] theorem takeInput_out (s : State) : s.takeInput.out = s.out := rfl
@[simp] theorem takeInput_hven (s : State) : s.takeInput.hven = s.hven := rfl
@[simp] theorem takeInput_inputs (s : State) : s.takeInput.inputs = s.inputsAfter := rfl

/-! ### rejectWord writes FAULT_ILLEGAL, and LISTREM and MODE in LIST (R142) -/

@[simp] theorem rejectWord_frame (s : State) : (rejectWord s).frame = s.frame := by
  unfold rejectWord; split <;> simp
@[simp] theorem rejectWord_txStep (s : State) : (rejectWord s).txStep = s.txStep := by
  unfold rejectWord; split <;> simp
@[simp] theorem rejectWord_faultRange (s : State) : (rejectWord s).faultRange = s.faultRange := by
  unfold rejectWord; split <;> simp
@[simp] theorem rejectWord_sdata (s : State) : (rejectWord s).sdata = s.sdata := by
  unfold rejectWord; split <;> simp
@[simp] theorem rejectWord_sclk (s : State) : (rejectWord s).sclk = s.sclk := by
  unfold rejectWord; split <;> simp
@[simp] theorem rejectWord_slatch (s : State) : (rejectWord s).slatch = s.slatch := by
  unfold rejectWord; split <;> simp
@[simp] theorem rejectWord_sr (s : State) : (rejectWord s).sr = s.sr := by
  unfold rejectWord; split <;> simp
@[simp] theorem rejectWord_out (s : State) : (rejectWord s).out = s.out := by
  unfold rejectWord; split <;> simp
@[simp] theorem rejectWord_hven (s : State) : (rejectWord s).hven = s.hven := by
  unfold rejectWord; split <;> simp
@[simp] theorem rejectWord_inputs (s : State) : (rejectWord s).inputs = s.inputs := by
  unfold rejectWord; split <;> simp
@[simp] theorem rejectWord_faultIllegal (s : State) : (rejectWord s).faultIllegal = true := by
  unfold rejectWord; split <;> simp

/-! ### offerWord writes the schedule only -/

@[simp] theorem offerWord_frame (w : CmdWord) (s : State) : (offerWord w s).frame = s.frame := rfl
@[simp] theorem offerWord_mode (w : CmdWord) (s : State) : (offerWord w s).mode = s.mode := rfl
@[simp] theorem offerWord_listRem (w : CmdWord) (s : State) : (offerWord w s).listRem = s.listRem := rfl
@[simp] theorem offerWord_txStep (w : CmdWord) (s : State) : (offerWord w s).txStep = s.txStep := rfl
@[simp] theorem offerWord_faultRange (w : CmdWord) (s : State) : (offerWord w s).faultRange = s.faultRange := rfl
@[simp] theorem offerWord_faultIllegal (w : CmdWord) (s : State) : (offerWord w s).faultIllegal = s.faultIllegal := rfl
@[simp] theorem offerWord_sdata (w : CmdWord) (s : State) : (offerWord w s).sdata = s.sdata := rfl
@[simp] theorem offerWord_sclk (w : CmdWord) (s : State) : (offerWord w s).sclk = s.sclk := rfl
@[simp] theorem offerWord_slatch (w : CmdWord) (s : State) : (offerWord w s).slatch = s.slatch := rfl
@[simp] theorem offerWord_sr (w : CmdWord) (s : State) : (offerWord w s).sr = s.sr := rfl
@[simp] theorem offerWord_out (w : CmdWord) (s : State) : (offerWord w s).out = s.out := rfl
@[simp] theorem offerWord_hven (w : CmdWord) (s : State) : (offerWord w s).hven = s.hven := rfl
@[simp] theorem offerWord_inputs (w : CmdWord) (s : State) : (offerWord w s).inputs = .word w :: s.inputs := rfl

/-! ### macroTransmit (R126) -/

@[simp] theorem macroTransmit_frame (s : State) : (macroTransmit s).frame = s.frame := rfl
@[simp] theorem macroTransmit_mode (s : State) : (macroTransmit s).mode = .idle := rfl
@[simp] theorem macroTransmit_listRem (s : State) : (macroTransmit s).listRem = s.listRem := rfl
@[simp] theorem macroTransmit_txStep (s : State) : (macroTransmit s).txStep = 0 := rfl
@[simp] theorem macroTransmit_faultRange (s : State) : (macroTransmit s).faultRange = s.faultRange := rfl
@[simp] theorem macroTransmit_faultIllegal (s : State) : (macroTransmit s).faultIllegal = s.faultIllegal := rfl
@[simp] theorem macroTransmit_sdata (s : State) : (macroTransmit s).sdata = s.W.getLsbD 0 := rfl
@[simp] theorem macroTransmit_sclk (s : State) : (macroTransmit s).sclk = false := rfl
@[simp] theorem macroTransmit_slatch (s : State) : (macroTransmit s).slatch = true := rfl
@[simp] theorem macroTransmit_sr (s : State) : (macroTransmit s).sr = s.W := rfl
@[simp] theorem macroTransmit_out (s : State) : (macroTransmit s).out = s.W := rfl
@[simp] theorem macroTransmit_hven (s : State) : (macroTransmit s).hven = s.hven := rfl
@[simp] theorem macroTransmit_inputs (s : State) : (macroTransmit s).inputs = s.inputs := rfl

end Sys2Proof.Machine
end

