-- ==== Sys2Proof/Laws/Frame.lean ====
section
/-! SUPPORT. The three views of the frame agree (R12, R13, R43), and what the frame operations do to each of them (R49, R101,
R106, R108). -/

namespace Sys2Proof.Machine

/-! ### The write decoder -/

theorem wpos_val (k : Fin 64) : (wpos k).val = 8 * (7 - k.val / 8) + k.val % 8 := rfl

theorem wpos_div (k : Fin 64) : (wpos k).val / 8 = (byteIdx k).val := by
  simp only [wpos, byteIdx, bitIdx]; omega

theorem wpos_mod (k : Fin 64) : (wpos k).val % 8 = (bitIdx k).val := by
  simp only [wpos, byteIdx, bitIdx]; omega

/-- R43 (c). -/
@[simp] theorem wpos_wpos (k : Fin 64) : wpos (wpos k) = k := by
  apply Fin.ext; simp only [wpos, byteIdx, bitIdx]; omega

/-- R43 (b). -/
theorem wpos_injective : Function.Injective wpos := fun a b h => by
  rw [← wpos_wpos a, h, wpos_wpos]

@[simp] theorem wpos_inj {a b : Fin 64} : wpos a = wpos b ↔ a = b := wpos_injective.eq_iff

/-- Two segments in one byte and at one bit are the same segment. -/
theorem seg_ext {a b : Fin 64} (hi : byteIdx a = byteIdx b) (hb : bitIdx a = bitIdx b) : a = b := by
  apply wpos_injective; apply Fin.ext; simp only [wpos, hi, hb]

theorem bitMask_getLsbD (k : Fin 64) (c : Fin 8) : (bitMask k).getLsbD c.val = decide (c = bitIdx k) := by
  revert k c; decide

theorem segIndex?_lt {seg : Byte} (h : seg.toNat < 64) : segIndex? seg = some ⟨seg.toNat, h⟩ := by
  simp [segIndex?, h]

theorem segIndex?_ge {seg : Byte} (h : 64 ≤ seg.toNat) : segIndex? seg = none := by
  simp [segIndex?, Nat.not_lt.mpr h]

/-! ### The views -/

/-- W[8*i + b] = B[i][b] (R12). -/
theorem frameWord_getLsbD (f : Vector Byte 8) (j : Nat) (h : j < 64) :
    (frameWord f).getLsbD j = f[j / 8].getLsbD (j % 8) := by
  unfold frameWord
  simp only [BitVec.getLsbD_append]
  interval_cases j <;> rfl

/-- W[wpos(seg)] = F[seg] (R13, R43). -/
@[simp] theorem W_getLsbD_wpos (s : State) (k : Fin 64) : s.W.getLsbD (wpos k).val = s.F k := by
  unfold State.W State.F
  rw [frameWord_getLsbD _ _ (wpos k).isLt]
  simp only [wpos_div, wpos_mod]; rfl

/-- Every bit of W is some segment's. -/
theorem W_getLsbD (s : State) (j : Fin 64) : s.W.getLsbD j.val = s.F (wpos j) := by
  rw [← W_getLsbD_wpos, wpos_wpos]

/-- Two states with the same W hold the same eight bytes. -/
theorem frameWord_injective : Function.Injective frameWord := fun f g h => by
  apply Vector.ext
  intro i hi
  apply BitVec.eq_of_getLsbD_eq
  intro b hb
  have e := congrArg (fun w => BitVec.getLsbD w (8 * i + b)) h
  simp only [frameWord_getLsbD _ (8 * i + b) (by omega)] at e
  have d : (8 * i + b) / 8 = i := by omega
  have m : (8 * i + b) % 8 = b := by omega
  simpa only [d, m] using e

theorem W_congr {s t : State} (h : s.frame = t.frame) : s.W = t.W := by unfold State.W; rw [h]

theorem frame_eq_of_W {s t : State} (h : s.W = t.W) : s.frame = t.frame := frameWord_injective h

theorem W_eq_of_F {s t : State} (h : ∀ k, s.F k = t.F k) : s.W = t.W := by
  apply BitVec.eq_of_getLsbD_eq
  intro j hj
  rw [W_getLsbD s ⟨j, hj⟩, W_getLsbD t ⟨j, hj⟩, h]

/-- The frame is determined by its 64 segments. -/
theorem frame_eq_of_F {s t : State} (h : ∀ k, s.F k = t.F k) : s.frame = t.frame := frame_eq_of_W (W_eq_of_F h)

theorem F_congr {s t : State} (h : s.frame = t.frame) (k : Fin 64) : s.F k = t.F k := by unfold State.F; rw [h]

/-! ### Operations that leave the frame alone -/

@[simp] theorem raise_W (f : BlockFault) (s : State) : (raise f s).W = s.W := W_congr (by simp)
@[simp] theorem loadList_W (c : Byte) (s : State) : (loadList c s).W = s.W := W_congr (by simp)
@[simp] theorem countElement_W (s : State) : (countElement s).W = s.W := W_congr (by simp)
@[simp] theorem drive_W (d : Drive) (s : State) : (drive d s).W = s.W := W_congr (by simp)
@[simp] theorem advanceTx_W (s : State) : (advanceTx s).W = s.W := W_congr (by simp)
@[simp] theorem setHven_W (l : Bool) (s : State) : (setHven l s).W = s.W := W_congr (by simp)
@[simp] theorem takeInput_W (s : State) : s.takeInput.W = s.W := W_congr (by simp)
@[simp] theorem rejectWord_W (s : State) : (rejectWord s).W = s.W := W_congr (by simp)
@[simp] theorem macroTransmit_W (s : State) : (macroTransmit s).W = s.W := W_congr (by simp)

@[simp] theorem raise_F (f : BlockFault) (s : State) (u : Fin 64) : (raise f s).F u = s.F u := F_congr (by simp) u
@[simp] theorem loadList_F (c : Byte) (s : State) (u : Fin 64) : (loadList c s).F u = s.F u := F_congr (by simp) u
@[simp] theorem countElement_F (s : State) (u : Fin 64) : (countElement s).F u = s.F u := F_congr (by simp) u

/-! ### Operations that write it -/

/-- Read after write (R109 (a), (b)). -/
@[simp] theorem memWrite_F (k u : Fin 64) (v : Bool) (s : State) :
    (memWrite k v s).F u = if u = k then v else s.F u := by
  unfold State.F memWrite
  simp only [Fin.getElem_fin, Vector.getElem_set]
  have m := bitMask_getLsbD k (bitIdx u)
  by_cases hi : byteIdx u = byteIdx k
  · by_cases hb : bitIdx u = bitIdx k
    · have e := seg_ext hi hb
      subst e
      cases v <;> simp [-BitVec.getLsbD_eq_getElem, m]
    · have e : u ≠ k := fun h => hb (h ▸ rfl)
      cases v <;> simp [-BitVec.getLsbD_eq_getElem, m, hi, hb, e]
  · have e : u ≠ k := fun h => hi (h ▸ rfl)
    have n : (byteIdx k).val ≠ (byteIdx u).val := fun h => hi (Fin.ext h.symm)
    simp [n, e]

theorem one_shiftLeft_getLsbD (p j : Nat) (hj : j < 64) : (1#64 <<< p).getLsbD j = decide (j = p) := by
  rw [BitVec.getLsbD_shiftLeft, BitVec.getLsbD_one, Bool.eq_iff_iff]
  simp only [Bool.and_eq_true, Bool.not_eq_true', decide_eq_true_eq, decide_eq_false_iff_not]
  omega

theorem eq_wpos_iff (k : Fin 64) (j : Nat) (hj : j < 64) : wpos ⟨j, hj⟩ = k ↔ j = (wpos k).val := by
  rw [← wpos_inj, wpos_wpos, Fin.ext_iff]

/-- ENABLE's write in the word view (R101). -/
theorem memWrite_true_W (k : Fin 64) (s : State) : (memWrite k true s).W = s.W ||| 1#64 <<< (wpos k).val := by
  apply BitVec.eq_of_getLsbD_eq
  intro j hj
  rw [BitVec.getLsbD_or, one_shiftLeft_getLsbD _ _ hj, W_getLsbD _ ⟨j, hj⟩, W_getLsbD _ ⟨j, hj⟩, memWrite_F]
  by_cases h : j = (wpos k).val <;> simp [eq_wpos_iff, h]

/-- DISABLE's write in the word view (R108). -/
theorem memWrite_false_W (k : Fin 64) (s : State) :
    (memWrite k false s).W = s.W &&& ~~~(1#64 <<< (wpos k).val) := by
  apply BitVec.eq_of_getLsbD_eq
  intro j hj
  rw [BitVec.getLsbD_and, BitVec.getLsbD_not, one_shiftLeft_getLsbD _ _ hj, W_getLsbD _ ⟨j, hj⟩, W_getLsbD _ ⟨j, hj⟩,
    memWrite_F]
  by_cases h : j = (wpos k).val <;> simp [eq_wpos_iff, h, hj]

theorem frameWord_zero : frameWord (Vector.replicate 8 0#8) = 0#64 := by decide

@[simp] theorem clearFrame_W (s : State) : (clearFrame s).W = 0 := by unfold State.W; simp [frameWord_zero]
@[simp] theorem applyReset_W (s : State) : (applyReset s).W = 0 := by unfold State.W; simp [frameWord_zero]

@[simp] theorem clearFrame_F (s : State) (u : Fin 64) : (clearFrame s).F u = false := by
  rw [← W_getLsbD_wpos, clearFrame_W]; simp

/-- A segment write with a valid index is the memory write of that segment. -/
theorem segWrite_lt {seg : Byte} (h : seg.toNat < 64) (v : Bool) (s : State) :
    segWrite seg v s = memWrite ⟨seg.toNat, h⟩ v s := by
  simp [segWrite, segIndex?_lt h]

/-- A segment write with an invalid index raises RangeFault and does nothing else (R48, R141). -/
theorem segWrite_ge {seg : Byte} (h : 64 ≤ seg.toNat) (v : Bool) (s : State) :
    segWrite seg v s = raise .range s := by
  simp [segWrite, segIndex?_ge h]

end Sys2Proof.Machine
end

