-- ==== Sys2Proof/Laws/PerInstr.lean ====
section
/-! SUPPORT. The family TableRow: an instruction's word meets the match and mask of its row of the opcode map (R77). -/

namespace Sys2Proof.Laws.TableRow

/-- The mask column of R77. -/
def rowMask : Instr → CmdWord
  | .enable _ => 0xFF00
  | .disableMany _ => 0xFF00
  | .seg _ => 0xFF00
  | .disableAll => 0xFFFF
  | .disable _ => 0xFF00
  | .transmit => 0xFFFF

/-- The match column of R77. -/
def rowMatch : Instr → CmdWord
  | .enable _ => 0x0100
  | .disableMany _ => 0x0200
  | .seg _ => 0x0000
  | .disableAll => 0x0300
  | .disable _ => 0x0400
  | .transmit => 0x0500

/-- The instruction's word, under its row's mask, is its row's match. -/
def Statement (i : Instr) : Prop := encode i &&& rowMask i = rowMatch i

/-- Masking a word with 0xFF00 keeps its upper byte and clears its lower. -/
theorem append_and_mask (a b : Byte) : (a ++ b : CmdWord) &&& 0xFF00 = a ++ (0 : Byte) := by
  apply BitVec.eq_of_getLsbD_eq
  intro i hi
  simp only [BitVec.getLsbD_and, BitVec.getLsbD_append]
  by_cases h : i < 8
  · interval_cases i <;> simp
  · interval_cases i <;> simp

theorem enable (s : Byte) : Statement (.enable s) := append_and_mask 0x01 s
theorem disableMany (n : Byte) : Statement (.disableMany n) := append_and_mask 0x02 n
theorem seg (s : Byte) : Statement (.seg s) := append_and_mask 0x00 s
theorem disableAll : Statement .disableAll := by unfold Statement; rfl
theorem disable (s : Byte) : Statement (.disable s) := append_and_mask 0x04 s
theorem transmit : Statement .transmit := by unfold Statement; rfl

end Sys2Proof.Laws.TableRow
end

