-- ==== Sys2Proof/Laws/Transmit.lean ====
section
/-! SUPPORT. The micro-steps of a transmit by TXSTEP (R121), what one micro-step can do, and three micro-steps as one bit. -/

namespace Sys2Proof.Machine

open Host (Outcome)

/-! ### The pin event of each micro-step -/

theorem microDrive_first (w : Word64) : microDrive w 0 = some ⟨.slatch, false⟩ := rfl

theorem microDrive_data (w : Word64) {i : Nat} (h : i ≤ 63) :
    microDrive w (1 + 3 * i) = some ⟨.sdata, w.getLsbD (63 - i)⟩ := by
  have d : (1 + 3 * i - 1) / 3 = i := by omega
  have m : (1 + 3 * i - 1) % 3 = 0 := by omega
  simp only [microDrive, Config.txLast, d, m]
  rw [if_neg (by omega), if_pos (by omega)]; rfl

theorem microDrive_rise (w : Word64) {i : Nat} (h : i ≤ 63) : microDrive w (2 + 3 * i) = some ⟨.sclk, true⟩ := by
  have m : (2 + 3 * i - 1) % 3 = 1 := by omega
  simp only [microDrive, Config.txLast, m]
  rw [if_neg (by omega), if_pos (by omega)]; rfl

theorem microDrive_fall (w : Word64) {i : Nat} (h : i ≤ 63) : microDrive w (3 + 3 * i) = some ⟨.sclk, false⟩ := by
  have m : (3 + 3 * i - 1) % 3 = 2 := by omega
  simp only [microDrive, Config.txLast, m]
  rw [if_neg (by omega), if_pos (by omega)]; rfl

theorem microDrive_last (w : Word64) : microDrive w 193 = some ⟨.slatch, true⟩ := rfl

theorem microDrive_above (w : Word64) {t : Nat} (h : 193 < t) : microDrive w t = none := by
  have a : ¬t = 0 := by omega
  have b : ¬t < 193 := by omega
  have c : ¬t = 193 := by omega
  simp only [microDrive, Config.txLast, a, b, c, if_false]

/-- Every TXSTEP up to 193 is one of the five kinds of micro-step (R121). -/
theorem txStep_kinds {t : Nat} (h : t ≤ 193) :
    t = 0 ∨ (∃ i ≤ 63, t = 1 + 3 * i) ∨ (∃ i ≤ 63, t = 2 + 3 * i) ∨ (∃ i ≤ 63, t = 3 + 3 * i) ∨ t = 193 := by
  by_cases h0 : t = 0
  · exact .inl h0
  · by_cases h1 : t = 193
    · exact .inr (.inr (.inr (.inr h1)))
    · have : (t - 1) % 3 = 0 ∨ (t - 1) % 3 = 1 ∨ (t - 1) % 3 = 2 := by omega
      rcases this with m | m | m
      · exact .inr (.inl ⟨(t - 1) / 3, by omega, by omega⟩)
      · exact .inr (.inr (.inl ⟨(t - 1) / 3, by omega, by omega⟩))
      · exact .inr (.inr (.inr (.inl ⟨(t - 1) / 3, by omega, by omega⟩)))

theorem microDrive_isSome {w : Word64} {t : Nat} (h : t ≤ 193) : ∃ d, microDrive w t = some d := by
  rcases txStep_kinds h with rfl | ⟨i, hi, rfl⟩ | ⟨i, hi, rfl⟩ | ⟨i, hi, rfl⟩ | rfl
  · exact ⟨_, microDrive_first w⟩
  · exact ⟨_, microDrive_data w hi⟩
  · exact ⟨_, microDrive_rise w hi⟩
  · exact ⟨_, microDrive_fall w hi⟩
  · exact ⟨_, microDrive_last w⟩

/-! ### One micro-step -/

/-- What a micro-step that answers a next state has done. -/
theorem microStep_next {s t : State} (h : microStep s = .next t) :
    s.txStep.toNat ≤ 193 ∧ ∃ d, microDrive s.W s.txStep.toNat = some d ∧ t = advanceTx (drive d s) := by
  unfold microStep at h
  split at h
  · rename_i d hd
    refine ⟨?_, d, hd, by simpa using h.symm⟩
    by_contra c
    rw [microDrive_above _ (by omega)] at hd
    cases hd
  · cases h

theorem microStep_of_drive {s : State} {d : Drive} (h : microDrive s.W s.txStep.toNat = some d) :
    microStep s = .next (advanceTx (drive d s)) := by
  unfold microStep; rw [h]

theorem advanceTx_last {s : State} (h : s.txStep.toNat = 193) : advanceTx s = { s with txStep := 0, mode := .idle } := by
  simp [advanceTx, Config.txLast, h]

theorem advanceTx_step {s : State} (n : Nat) (h : s.txStep.toNat = n) (hn : n ≤ 192) :
    advanceTx s = { s with txStep := BitVec.ofNat 8 (1 + n) } := by
  have e : s.txStep + 1 = BitVec.ofNat 8 (1 + n) := by
    apply BitVec.eq_of_toNat_eq
    simp only [BitVec.toNat_add, h, BitVec.toNat_ofNat, BitVec.ofNat_eq_ofNat]
    omega
  simp only [advanceTx, Config.txLast, h]
  rw [if_neg (by omega), e]

/-- Micro-step 0 (R121). -/
theorem microStep_first {s : State} (h : s.txStep.toNat = 0) :
    microStep s = .next { s with slatch := false, txStep := 1 } := by
  rw [microStep_of_drive (d := ⟨.slatch, false⟩) (by rw [h]; rfl), advanceTx_step 0 (by simpa using h) (by omega)]
  rfl

/-- The data micro-step of bit `i` (R121). -/
theorem microStep_data {s : State} {i : Nat} (hi : i ≤ 63) (h : s.txStep.toNat = 1 + 3 * i) :
    microStep s = .next { s with sdata := s.W.getLsbD (63 - i), txStep := BitVec.ofNat 8 (2 + 3 * i) } := by
  rw [microStep_of_drive (by rw [h]; exact microDrive_data _ hi), advanceTx_step _ (by simpa using h) (by omega),
    ← Nat.add_assoc]
  rfl

/-- The clock-up micro-step of bit `i`, with the chain's reaction to a rising edge (R121, R27). -/
theorem microStep_rise {s : State} {i : Nat} (hi : i ≤ 63) (h : s.txStep.toNat = 2 + 3 * i) :
    microStep s = .next { s with
      sclk := true
      sr := if s.sclk = false then shiftIn s.sr s.sdata else s.sr
      txStep := BitVec.ofNat 8 (3 + 3 * i) } := by
  rw [microStep_of_drive (by rw [h]; exact microDrive_rise _ hi), advanceTx_step _ (by simpa using h) (by omega),
    ← Nat.add_assoc]
  cases hc : s.sclk <;> simp [drive, hc]

/-- The clock-down micro-step of bit `i` (R121). -/
theorem microStep_fall {s : State} {i : Nat} (hi : i ≤ 63) (h : s.txStep.toNat = 3 + 3 * i) :
    microStep s = .next { s with sclk := false, txStep := BitVec.ofNat 8 (4 + 3 * i) } := by
  rw [microStep_of_drive (by rw [h]; exact microDrive_fall _ hi), advanceTx_step _ (by simpa using h) (by omega),
    ← Nat.add_assoc]
  rfl

/-- Micro-step 193, with the latch's reaction to a rising edge (R121, R28). -/
theorem microStep_last {s : State} (h : s.txStep.toNat = 193) :
    microStep s = .next { s with
      slatch := true
      out := if s.slatch = false then s.sr else s.out
      txStep := 0
      mode := .idle } := by
  rw [microStep_of_drive (by rw [h]; exact microDrive_last _), advanceTx_last (by simpa using h)]
  cases hc : s.slatch <;> simp [drive, hc]

/-- A micro-step exists exactly up to TXSTEP 193. -/
theorem microStep_isNext {s : State} (h : s.txStep.toNat ≤ 193) : ∃ t, microStep s = .next t := by
  obtain ⟨d, hd⟩ := microDrive_isSome (w := s.W) h
  exact ⟨_, microStep_of_drive hd⟩

/-- What every micro-step leaves alone (R23: pins and environment apart; R120: 'Frame: not written'). -/
theorem microStep_frame {s t : State} (h : microStep s = .next t) :
    t.frame = s.frame ∧ t.listRem = s.listRem ∧ t.faultRange = s.faultRange ∧ t.faultIllegal = s.faultIllegal ∧
    t.hven = s.hven ∧ t.inputs = s.inputs := by
  obtain ⟨-, d, -, rfl⟩ := microStep_next h
  simp

/-- A micro-step needs nothing from the schedule (R121). -/
theorem microStep_inputs {s t : State} (l : List Input) (h : microStep s = .next t) :
    microStep { s with inputs := l } = .next { t with inputs := l } := by
  obtain ⟨-, d, hd, rfl⟩ := microStep_next h
  rw [microStep_of_drive (s := { s with inputs := l }) (d := d) hd]
  by_cases q : s.txStep.toNat = Config.txLast <;> rcases d with ⟨_ | _ | _, _⟩ <;> simp [drive, advanceTx, q]

/-- MODE and TXSTEP after a micro-step (R17, R19). -/
theorem microStep_control {s t : State} (h : microStep s = .next t) :
    (s.txStep.toNat = 193 → t.mode = .idle ∧ t.txStep = 0) ∧
    (s.txStep.toNat ≠ 193 → t.mode = s.mode ∧ t.txStep.toNat = s.txStep.toNat + 1) := by
  obtain ⟨hle, d, -, rfl⟩ := microStep_next h
  constructor
  · intro e
    rw [advanceTx_last (by simpa using e)]
    exact ⟨rfl, rfl⟩
  · intro e
    rw [advanceTx_step s.txStep.toNat (by simp) (by omega)]
    refine ⟨by simp, ?_⟩
    simp only [BitVec.toNat_ofNat]
    omega

/-! ### Several micro-steps -/

theorem microSteps_add (m n : Nat) (s : State) :
    microSteps (m + n) s = match microSteps m s with
      | .next t => microSteps n t
      | .fault r => .fault r
      | .refused r => .refused r := by
  induction m generalizing s with
  | zero => simp [microSteps]
  | succ m ih =>
    rw [Nat.succ_add]
    simp only [microSteps]
    cases microStep s with
    | next t => exact ih t
    | fault r => rfl
    | refused r => rfl

theorem microSteps_add_next {m n : Nat} {s t : State} (h : microSteps m s = .next t) :
    microSteps (m + n) s = microSteps n t := by
  rw [microSteps_add, h]

theorem microSteps_succ_next {n : Nat} {s t : State} (h : microStep s = .next t) :
    microSteps (n + 1) s = microSteps n t := by
  simp only [microSteps, h]

/-- SR after `k` clock edges of a transmit of `w` begun with `sr` in the chain (R125). -/
def chainAfter (w sr : Word64) (k : Nat) : Word64 := sr <<< k ||| w >>> (64 - k)

theorem chainAfter_getLsbD (w sr : Word64) {k : Nat} (hk : k ≤ 64) {j : Nat} (hj : j < 64) :
    (chainAfter w sr k).getLsbD j = if j < k then w.getLsbD (64 - k + j) else sr.getLsbD (j - k) := by
  simp only [chainAfter, BitVec.getLsbD_or, BitVec.getLsbD_shiftLeft, BitVec.getLsbD_ushiftRight, hj, decide_true,
    Bool.true_and]
  by_cases h : j < k
  · simp [h]
  · have e : w.getLsbD (64 - k + j) = false := BitVec.getLsbD_of_ge _ _ (by omega)
    simp [h, e]

theorem shiftIn_getLsbD (sr : Word64) (d : Bool) {j : Nat} (hj : j < 64) :
    (shiftIn sr d).getLsbD j = if j = 0 then d else sr.getLsbD (j - 1) := by
  unfold shiftIn
  rw [BitVec.getLsbD_append]
  by_cases h : j = 0
  · subst h; simp
  · rw [if_neg (by omega), if_neg h, BitVec.getLsbD_extractLsb', Nat.zero_add]
    simp only [Bool.and_eq_right_iff_imp, decide_eq_true_eq]
    intro _
    omega

theorem chainAfter_zero (w sr : Word64) : chainAfter w sr 0 = sr := by
  apply BitVec.eq_of_getLsbD_eq
  intro j hj
  rw [chainAfter_getLsbD _ _ (by omega) hj]; simp

theorem chainAfter_full (w sr : Word64) : chainAfter w sr 64 = w := by
  apply BitVec.eq_of_getLsbD_eq
  intro j hj
  rw [chainAfter_getLsbD _ _ (by omega) hj]; simp [hj]

/-- One more clock edge (R27). -/
theorem chainAfter_succ (w sr : Word64) {k : Nat} (hk : k ≤ 63) :
    shiftIn (chainAfter w sr k) (w.getLsbD (63 - k)) = chainAfter w sr (k + 1) := by
  apply BitVec.eq_of_getLsbD_eq
  intro j hj
  rw [shiftIn_getLsbD _ _ hj, chainAfter_getLsbD _ _ (by omega) hj]
  by_cases h : j = 0
  · subst h
    rw [if_pos rfl, if_pos (by omega)]
    congr 1; omega
  · rw [if_neg h, chainAfter_getLsbD _ _ (by omega) (by omega)]
    by_cases c : j - 1 < k
    · rw [if_pos c, if_pos (by omega)]
      congr 1; omega
    · rw [if_neg c, if_neg (by omega)]
      congr 1; omega

/-- The three micro-steps of one bit: data, clock up, clock down. -/
theorem microSteps_bit {s : State} {i : Nat} (hi : i ≤ 63) (h : s.txStep.toNat = 1 + 3 * i) (hc : s.sclk = false) :
    microSteps 3 s = .next { s with
      sdata := s.W.getLsbD (63 - i)
      sr := shiftIn s.sr (s.W.getLsbD (63 - i))
      txStep := BitVec.ofNat 8 (4 + 3 * i) } := by
  have t2 : (BitVec.ofNat 8 (2 + 3 * i)).toNat = 2 + 3 * i := by rw [BitVec.toNat_ofNat]; omega
  have t3 : (BitVec.ofNat 8 (3 + 3 * i)).toNat = 3 + 3 * i := by rw [BitVec.toNat_ofNat]; omega
  rw [microSteps_succ_next (microStep_data hi h), microSteps_succ_next (microStep_rise hi t2),
    microSteps_succ_next (microStep_fall hi t3)]
  simp [microSteps, hc]

/-- The state after the first `n` bits of a transmit (R121, R125). -/
def afterBits (s : State) (n : Nat) : State :=
  { s with
    slatch := false
    sdata := if n = 0 then s.sdata else s.W.getLsbD (64 - n)
    sr := chainAfter s.W s.sr n
    txStep := BitVec.ofNat 8 (1 + 3 * n) }

/-- Micro-step 0 and the micro-steps of the first `n` bits. -/
theorem microSteps_afterBits {s : State} (h : s.txStep = 0) (hc : s.sclk = false) {n : Nat} (hn : n ≤ 64) :
    microSteps (1 + 3 * n) s = .next (afterBits s n) := by
  induction n with
  | zero =>
    rw [microSteps_succ_next (n := 0) (microStep_first (by simp [h]))]
    simp [microSteps, afterBits, chainAfter_zero]
  | succ n ih =>
    have e : 1 + 3 * (n + 1) = 1 + 3 * n + 3 := by omega
    have t : (afterBits s n).txStep.toNat = 1 + 3 * n := by
      simp only [afterBits, BitVec.toNat_ofNat]; omega
    have w : (afterBits s n).W = s.W := rfl
    rw [e, microSteps_add_next (ih (by omega)), microSteps_bit (by omega) t (by simpa [afterBits] using hc), w]
    have k : 64 - (n + 1) = 63 - n := by omega
    have x : 4 + 3 * n = 1 + 3 * (n + 1) := by omega
    have sr : (afterBits s n).sr = chainAfter s.W s.sr n := rfl
    rw [sr, chainAfter_succ _ _ (by omega)]
    simp [afterBits, k, x]

end Sys2Proof.Machine
end

