-- ==== Sys2Proof/Laws/Sequencer.lean ====
section
/-! SUPPORT. What an accept, a move and a step can do, said once: later proofs take a step apart by these and never unfold it. -/

namespace Sys2Proof.Machine

/-! ### exec, one equation for each instruction -/

@[simp] theorem exec_enable (g : Byte) (s : State) : exec (.enable g) s = .next (segWrite g true s) := rfl
@[simp] theorem exec_disable (g : Byte) (s : State) : exec (.disable g) s = .next (segWrite g false s) := rfl
@[simp] theorem exec_disableMany (n : Byte) (s : State) : exec (.disableMany n) s = .next (loadList n s) := rfl
@[simp] theorem exec_seg (g : Byte) (s : State) : exec (.seg g) s = .next (countElement (segWrite g false s)) := rfl
@[simp] theorem exec_disableAll (s : State) : exec .disableAll s = .next (clearFrame s) := rfl
@[simp] theorem exec_transmit (s : State) : exec .transmit s = .next { s with mode := .shift, txStep := 0 } := rfl

/-- No instruction stops. -/
theorem exec_isNext (i : Instr) (s : State) : ∃ t, exec i s = .next t := by
  cases i <;> exact ⟨_, rfl⟩

/-- What no instruction touches: the pins, the environment, the schedule, FAULT_ILLEGAL (R100, R120). -/
theorem exec_frame {i : Instr} {s t : State} (h : exec i s = .next t) :
    t.sdata = s.sdata ∧ t.sclk = s.sclk ∧ t.slatch = s.slatch ∧ t.sr = s.sr ∧ t.out = s.out ∧ t.hven = s.hven ∧
    t.inputs = s.inputs ∧ t.faultIllegal = s.faultIllegal := by
  cases i <;> simp only [exec_enable, exec_disable, exec_disableMany, exec_seg, exec_disableAll, exec_transmit,
    Host.Outcome.next.injEq] at h <;> subst h <;> simp

/-! ### Counting a list element (R104) -/

theorem listRemAfter_toNat (s : State) : (listRemAfter s).toNat = s.listRem.toNat - 1 := by
  have := s.listRem.isLt
  unfold listRemAfter
  split
  · rename_i h; simp [h]
  · rename_i h
    have n : s.listRem.toNat ≠ 0 := fun c => h (BitVec.eq_of_toNat_eq c)
    simp only [BitVec.toNat_sub, BitVec.ofNat_eq_ofNat, BitVec.toNat_ofNat]
    omega

theorem listRem_eq_one_iff (s : State) : s.listRem = 1 ↔ s.listRem.toNat = 1 := by
  rw [← BitVec.toNat_inj]; rfl

/-- In LIST with at least one element to come, an element counts exactly as R104 says. -/
theorem countElement_of_list {s : State} (hm : s.mode = .list) (h : 1 ≤ s.listRem.toNat) :
    countElement s = { s with listRem := s.listRem - 1, mode := if s.listRem = 1 then .idle else .list } := by
  have n : s.listRem ≠ 0 := fun c => by simp [c] at h
  have e : listRemAfter s = s.listRem - 1 := by simp only [listRemAfter, if_neg n]
  have z : s.listRem - 1 = 0 ↔ s.listRem = 1 := by
    rw [listRem_eq_one_iff, ← e, ← BitVec.toNat_inj, listRemAfter_toNat]
    simp only [BitVec.ofNat_eq_ofNat, BitVec.toNat_ofNat, Nat.zero_mod]
    omega
  simp only [countElement, e, z, hm]

/-! ### The next move -/

theorem takeInput_of_cons {s : State} {x : Input} {rest : List Input} (hi : s.inputs = x :: rest) (hm : s.mode ≠ .shift) :
    s.takeInput = { s with inputs := rest } := by
  simp only [State.takeInput, State.inputsAfter, hi]
  split <;> simp_all

theorem takeInput_of_reset {s : State} {rest : List Input} (hi : s.inputs = .reset :: rest) :
    s.takeInput = { s with inputs := rest } := by
  simp only [State.takeInput, State.inputsAfter, hi]
  split <;> simp_all

theorem takeInput_of_hven {s : State} {l : Bool} {rest : List Input} (hi : s.inputs = .hven l :: rest) :
    s.takeInput = { s with inputs := rest } := by
  simp only [State.takeInput, State.inputsAfter, hi]
  split <;> simp_all

/-- In SHIFT an offered word is held, and an empty schedule stays empty (R24). -/
theorem takeInput_of_words {s : State} {stream : List CmdWord} (hi : s.inputs = stream.map .word) (hm : s.mode = .shift) :
    s.takeInput = s := by
  cases s
  cases stream <;> simp_all [State.takeInput, State.inputsAfter]

theorem nextMove_word {s : State} {w : CmdWord} {rest : List Input} (hi : s.inputs = .word w :: rest)
    (hm : s.mode ≠ .shift) : s.nextMove = .accept w := by
  simp only [State.nextMove, State.blockMove, hi]

theorem nextMove_reset {s : State} {rest : List Input} (hi : s.inputs = .reset :: rest) : s.nextMove = .reset := by
  simp only [State.nextMove, hi]

theorem nextMove_hven {s : State} {l : Bool} {rest : List Input} (hi : s.inputs = .hven l :: rest) :
    s.nextMove = .hven l := by
  simp only [State.nextMove, hi]

theorem nextMove_shift {s : State} (hm : s.mode = .shift) (hr : ∀ rest, s.inputs ≠ .reset :: rest)
    (hh : ∀ l rest, s.inputs ≠ .hven l :: rest) : s.nextMove = .microStep := by
  simp only [State.nextMove, State.blockMove, hm]

theorem nextMove_words {s : State} {stream : List CmdWord} (hi : s.inputs = stream.map .word) (hm : s.mode = .shift) :
    s.nextMove = .microStep := by
  apply nextMove_shift hm <;> cases stream <;> simp_all

theorem nextMove_wait {s : State} {rest : List Input} (hi : s.inputs = .wait :: rest) (hm : s.mode ≠ .shift) :
    s.nextMove = .hostWaits := by
  simp only [State.nextMove, State.blockMove, hi]

theorem nextMove_nil {s : State} (hi : s.inputs = []) (hm : s.mode ≠ .shift) : s.nextMove = .noMove := by
  simp only [State.nextMove, State.blockMove, hi]

/-- Which move is next, and on what: all the cases. -/
theorem nextMove_cases (s : State) :
    (∃ w rest, s.inputs = .word w :: rest ∧ s.mode ≠ .shift ∧ s.nextMove = .accept w) ∨
    (s.mode = .shift ∧ (∀ rest, s.inputs ≠ .reset :: rest) ∧ (∀ l rest, s.inputs ≠ .hven l :: rest) ∧
      s.nextMove = .microStep) ∨
    (∃ rest, s.inputs = .reset :: rest ∧ s.nextMove = .reset) ∨
    (∃ l rest, s.inputs = .hven l :: rest ∧ s.nextMove = .hven l) ∨
    (∃ rest, s.inputs = .wait :: rest ∧ s.mode ≠ .shift ∧ s.nextMove = .hostWaits) ∨
    (s.inputs = [] ∧ s.mode ≠ .shift ∧ s.nextMove = .noMove) := by
  by_cases hm : s.mode = .shift
  · rcases hi : s.inputs with _ | ⟨_ | _ | _ | _, _⟩
    · exact .inr (.inl ⟨hm, by simp, by simp, nextMove_shift hm (by simp [hi]) (by simp [hi])⟩)
    · exact .inr (.inl ⟨hm, by simp, by simp, nextMove_shift hm (by simp [hi]) (by simp [hi])⟩)
    · exact .inr (.inl ⟨hm, by simp, by simp, nextMove_shift hm (by simp [hi]) (by simp [hi])⟩)
    · exact .inr (.inr (.inl ⟨_, rfl, nextMove_reset hi⟩))
    · exact .inr (.inr (.inr (.inl ⟨_, _, rfl, nextMove_hven hi⟩)))
  · rcases hi : s.inputs with _ | ⟨_ | _ | _ | _, _⟩
    · exact .inr (.inr (.inr (.inr (.inr ⟨rfl, hm, nextMove_nil hi hm⟩))))
    · exact .inl ⟨_, _, rfl, hm, nextMove_word hi hm⟩
    · exact .inr (.inr (.inr (.inr (.inl ⟨_, rfl, hm, nextMove_wait hi hm⟩))))
    · exact .inr (.inr (.inl ⟨_, rfl, nextMove_reset hi⟩))
    · exact .inr (.inr (.inr (.inl ⟨_, _, rfl, nextMove_hven hi⟩)))

/-! ### One step -/

/-- An accept, in the two ways it can go (R76). -/
theorem acceptWord_next {w : CmdWord} {s t : State} (h : acceptWord w s = .next t) :
    (∃ i, decode s.mode w = .ok i ∧ exec i s = .next t) ∨ (∃ e, decode s.mode w = .error e ∧ t = rejectWord s) := by
  unfold acceptWord at h
  split at h
  · exact .inl ⟨_, ‹_›, h⟩
  · exact .inr ⟨_, ‹_›, by simpa using h.symm⟩

theorem acceptWord_of_ok {w : CmdWord} {i : Instr} {s : State} {m : Mode} (hm : s.mode = m) (h : decode m w = .ok i) :
    acceptWord w s = exec i s := by
  simp only [acceptWord, hm, h]

theorem acceptWord_of_error {w : CmdWord} {e : Illegal} {s : State} {m : Mode} (hm : s.mode = m)
    (h : decode m w = .error e) : acceptWord w s = .next (rejectWord s) := by
  simp only [acceptWord, hm, h]

theorem rejectWord_of_list {s : State} (h : s.mode = .list) : rejectWord s = countElement (raise .illegal s) := by
  simp only [rejectWord, h]

theorem rejectWord_of_not_list {s : State} (h : s.mode ≠ .list) : rejectWord s = raise .illegal s := by
  unfold rejectWord; split <;> simp_all

theorem acceptWord_isNext (w : CmdWord) (s : State) : ∃ t, acceptWord w s = .next t := by
  unfold acceptWord
  split
  · exact exec_isNext _ _
  · exact ⟨_, rfl⟩

theorem step_word {s : State} {w : CmdWord} {rest : List Input} (hi : s.inputs = .word w :: rest)
    (hm : s.mode ≠ .shift) : step s = acceptWord w { s with inputs := rest } := by
  simp only [step, performMove, nextMove_word hi hm, takeInput_of_cons hi hm]

/-- A step that accepts an illegal word (R142). -/
theorem step_word_error {s : State} {w : CmdWord} {rest : List Input} {e : Illegal} (hi : s.inputs = .word w :: rest)
    (hm : s.mode ≠ .shift) (hd : decode s.mode w = .error e) :
    step s = .next (rejectWord { s with inputs := rest }) := by
  rw [step_word hi hm, acceptWord_of_error (s := { s with inputs := rest }) rfl hd]

theorem step_reset {s : State} {rest : List Input} (hi : s.inputs = .reset :: rest) :
    step s = .next (applyReset { s with inputs := rest }) := by
  simp only [step, performMove, nextMove_reset hi, takeInput_of_reset hi]

theorem step_hven {s : State} {l : Bool} {rest : List Input} (hi : s.inputs = .hven l :: rest) :
    step s = .next { s with hven := l, inputs := rest } := by
  simp only [step, performMove, nextMove_hven hi, takeInput_of_hven hi]; rfl

theorem step_wait {s : State} {rest : List Input} (hi : s.inputs = .wait :: rest) (hm : s.mode ≠ .shift) :
    step s = .next { s with inputs := rest } := by
  simp only [step, performMove, nextMove_wait hi hm, takeInput_of_cons hi hm]

theorem step_nil {s : State} (hi : s.inputs = []) (hm : s.mode ≠ .shift) : step s = .fault (noMoveFault s) := by
  simp only [step, performMove, nextMove_nil hi hm]

theorem step_microStep {s : State} (h : s.nextMove = .microStep) : step s = microStep s.takeInput := by
  simp only [step, performMove, h]

/-- During SHIFT, with nothing but words to come, a step is the micro-step and the words stay offered (R24). -/
theorem step_words {s : State} {stream : List CmdWord} (hi : s.inputs = stream.map .word) (hm : s.mode = .shift) :
    step s = microStep s := by
  rw [step_microStep (nextMove_words hi hm), takeInput_of_words hi hm]

/-- Everything a step that answers a next state can have done. -/
theorem step_cases {s t : State} (h : step s = .next t) :
    (∃ w rest i, s.inputs = .word w :: rest ∧ s.mode ≠ .shift ∧ s.nextMove = .accept w ∧ decode s.mode w = .ok i ∧
      exec i { s with inputs := rest } = .next t) ∨
    (∃ w rest e, s.inputs = .word w :: rest ∧ s.mode ≠ .shift ∧ s.nextMove = .accept w ∧ decode s.mode w = .error e ∧
      t = rejectWord { s with inputs := rest }) ∨
    (s.mode = .shift ∧ s.nextMove = .microStep ∧ microStep s.takeInput = .next t) ∨
    (∃ rest, s.inputs = .reset :: rest ∧ s.nextMove = .reset ∧ t = applyReset { s with inputs := rest }) ∨
    (∃ l rest, s.inputs = .hven l :: rest ∧ s.nextMove = .hven l ∧ t = { s with hven := l, inputs := rest }) ∨
    (∃ rest, s.inputs = .wait :: rest ∧ s.mode ≠ .shift ∧ s.nextMove = .hostWaits ∧ t = { s with inputs := rest }) := by
  rcases nextMove_cases s with ⟨w, rest, hi, hm, hn⟩ | ⟨hm, -, -, hn⟩ | ⟨rest, hi, hn⟩ | ⟨l, rest, hi, hn⟩ |
    ⟨rest, hi, hm, hn⟩ | ⟨hi, hm, hn⟩
  · rw [step_word hi hm] at h
    rcases acceptWord_next h with ⟨i, hd, he⟩ | ⟨e, hd, he⟩
    · exact .inl ⟨w, rest, i, hi, hm, hn, hd, he⟩
    · exact .inr (.inl ⟨w, rest, e, hi, hm, hn, hd, he⟩)
  · rw [step_microStep hn] at h
    exact .inr (.inr (.inl ⟨hm, hn, h⟩))
  · rw [step_reset hi] at h
    exact .inr (.inr (.inr (.inl ⟨rest, hi, hn, by simpa using h.symm⟩)))
  · rw [step_hven hi] at h
    exact .inr (.inr (.inr (.inr (.inl ⟨l, rest, hi, hn, by simpa using h.symm⟩))))
  · rw [step_wait hi hm] at h
    exact .inr (.inr (.inr (.inr (.inr ⟨rest, hi, hm, hn, by simpa using h.symm⟩))))
  · rw [step_nil hi hm] at h
    cases h

/-! ### Clean steps (R148) -/

/-- An instruction keeps a state clean exactly when its segment operand, if it has one, is in range (R141). -/
theorem exec_clean_iff {i : Instr} {s t : State} (h : exec i s = .next t) :
    t.Clean ↔ s.Clean ∧ i.inRange = true := by
  cases i <;> simp only [exec_enable, exec_disable, exec_disableMany, exec_seg, exec_disableAll, exec_transmit,
    Host.Outcome.next.injEq] at h <;> subst h <;> simp [State.Clean, Instr.inRange] <;> tauto

/-- A word that is no instruction leaves no state clean (R142). -/
theorem rejectWord_not_clean (s : State) : ¬(rejectWord s).Clean := by
  simp [State.Clean]

/-- A micro-step changes no fault flag (R120, R121). -/
theorem microStep_clean_iff {s t : State} (h : microStep s = .next t) : t.Clean ↔ s.Clean := by
  simp only [State.Clean, (microStep_frame h).2.2.1, (microStep_frame h).2.2.2.1]

/-! ### Several steps -/

theorem run_zero (s : State) : Sys2Proof.core.run 0 s = .next s := rfl

theorem run_succ_next {n : Nat} {s t : State} (h : step s = .next t) :
    Sys2Proof.core.run (n + 1) s = Sys2Proof.core.run n t := by
  have e : Sys2Proof.core.step s = .next t := h
  simp only [Host.Core.run, e]

/-- A run that goes on is a first step and the rest. -/
theorem run_succ_cases {n : Nat} {s u : State} (h : Sys2Proof.core.run (n + 1) s = .next u) :
    ∃ t, step s = .next t ∧ Sys2Proof.core.run n t = .next u := by
  cases e : step s with
  | next t => exact ⟨t, rfl, by rw [← run_succ_next e]; exact h⟩
  | fault r => have e' : Sys2Proof.core.step s = .fault r := e; simp only [Host.Core.run, e'] at h; cases h
  | refused r => have e' : Sys2Proof.core.step s = .refused r := e; simp only [Host.Core.run, e'] at h; cases h

/-- During a transmit, with nothing but words to come, the machine's steps are the transmitter's micro-steps. -/
theorem run_eq_microSteps {n : Nat} {s : State} {stream : List CmdWord} (hi : s.inputs = stream.map .word)
    (hm : s.mode = .shift) (hn : s.txStep.toNat + n ≤ 194) : Sys2Proof.core.run n s = microSteps n s := by
  induction n generalizing s with
  | zero => rfl
  | succ n ih =>
    obtain ⟨t, ht⟩ := microStep_isNext (s := s) (by omega)
    rw [run_succ_next (by rw [step_words hi hm]; exact ht), microSteps_succ_next ht]
    by_cases hl : s.txStep.toNat = 193
    · have : n = 0 := by omega
      subst this; rfl
    · have c := (microStep_control ht).2 hl
      exact ih (by rw [(microStep_frame ht).2.2.2.2.2, hi]) (by rw [c.1, hm]) (by rw [c.2]; omega)

end Sys2Proof.Machine
end

