-- ==== Sys2Proof/Tests/Slice0.lean ====
section
/-! SUPPORT. The model's own tests. Expected values are copied from the spec: the encoding column of R77, the table of R79,
the vectors of spec/95_test_vectors.md (V, X, A, L, I, T, Z). Then, for every obligation with hypotheses, a witness: a state and
operands that meet them, one for each clause, at the ends of its range. -/

namespace Sys2Proof.Tests

open Sys2Proof Sys2Proof.Machine

/-! ### Helpers -/

/-- The eight frame bytes of a word W (R12). -/
def frameOf (w : Word64) : Vector Byte 8 :=
  #v[w.extractLsb' 0 8, w.extractLsb' 8 8, w.extractLsb' 16 8, w.extractLsb' 24 8, w.extractLsb' 32 8, w.extractLsb' 40 8,
    w.extractLsb' 48 8, w.extractLsb' 56 8]

/-- IDLE with frame word `w` and everything else 0. -/
def idle (w : Word64) : State := { State.powerOn 0 0 with frame := frameOf w }

/-- LIST with `n` elements to come. -/
def inList (w : Word64) (n : Byte) : State := { idle w with mode := .list, listRem := n }

/-- SHIFT before micro-step `t`. -/
def inShift (w : Word64) (t : BitVec 8) : State := { idle w with mode := .shift, txStep := t }

/-- A word is the next input. -/
def offering (w : CmdWord) (s : State) : State := { s with inputs := [.word w] }

/-- The next state of an outcome, if it is one. -/
def nextOf (o : Host.Outcome State Fault Refusal) : Option State :=
  match o with
  | .next s => some s
  | .fault _ => none
  | .refused _ => none

/-- What the vectors list: W, MODE, LISTREM, FAULT_RANGE, FAULT_ILLEGAL. -/
def row (o : Host.Outcome State Fault Refusal) : Option (Word64 × Mode × Byte × Bool × Bool) :=
  (nextOf o).map fun s => (s.W, s.mode, s.listRem, s.faultRange, s.faultIllegal)

/-- The pins (SDATA, SCLK, SLATCH), SR and OUT. -/
def chain (o : Host.Outcome State Fault Refusal) : Option (Bool × Bool × Bool × Word64 × Word64) :=
  (nextOf o).map fun s => (s.sdata, s.sclk, s.slatch, s.sr, s.out)

/-! ### Well-formedness refuses what R77, R82 and R83 rule out -/

theorem test_wf_seg_only_in_list : Instr.wfIn (.seg 5) .list = true ∧ Instr.wfIn (.seg 5) .idle = false := by decide
theorem test_wf_command_not_in_list : Instr.wfIn (.enable 5) .idle = true ∧ Instr.wfIn (.enable 5) .list = false := by decide
theorem test_wf_nothing_in_shift :
    Instr.wfIn .transmit .shift = false ∧ Instr.wfIn (.seg 0) .shift = false ∧ Instr.wfIn (.disableMany 1) .shift = false := by
  decide
theorem test_wf_inRange_refuses_64 :
    Instr.inRange (.enable 63) = true ∧ Instr.inRange (.enable 64) = false ∧ Instr.inRange (.disable 64) = false ∧
    Instr.inRange (.seg 255) = false := by decide
theorem test_wf_stream_accepts_whole_list : streamWf [.disableMany 2, .seg 0, .seg 7, .transmit] = true := by decide
theorem test_wf_stream_refuses_short_list : streamWf [.disableMany 2, .seg 1] = false := by decide
theorem test_wf_stream_refuses_long_list : streamWf [.disableMany 1, .seg 1, .seg 2] = false := by decide
theorem test_wf_stream_refuses_stray_element : streamWf [.enable 1, .seg 1] = false := by decide
theorem test_wf_stream_refuses_command_in_list :
    streamWf [.disableMany 2, .seg 1, .transmit] = false ∧ streamWf [.disableMany 1, .disableMany 0] = false ∧
    streamWf [.disableMany 1, .enable 1] = false ∧ streamWf [.disableMany 1, .disable 1] = false ∧
    streamWf [.disableMany 1, .disableAll] = false := by decide
theorem test_wf_pseudo_refuses_empty_list : Pseudo.wf (.disableList []) = false ∧ Pseudo.wf (.disableList [0]) = true := by
  decide
theorem test_wf_pseudo_refuses_256 :
    Pseudo.wf (.disableList (List.replicate 255 0)) = true ∧ Pseudo.wf (.disableList (List.replicate 256 0)) = false := by
  simp only [Pseudo.wf, List.length_replicate]
  decide

/-! ### Decoding and encoding, from the encoding column of R77 -/

theorem test_decode_enable : decode .idle 0b00000001_11000101 = .ok (.enable 0b11000101) := by decide
theorem test_decode_disableMany : decode .idle 0b00000010_10000001 = .ok (.disableMany 0b10000001) := by decide
theorem test_decode_seg : decode .list 0b00000000_01100110 = .ok (.seg 0b01100110) := by decide
theorem test_decode_disableAll : decode .idle 0b00000011_00000000 = .ok .disableAll := by decide
theorem test_decode_disable : decode .idle 0b00000100_10011001 = .ok (.disable 0b10011001) := by decide
theorem test_decode_transmit : decode .idle 0b00000101_00000000 = .ok .transmit := by decide

theorem test_encode_words :
    encode (.enable 0b11000101) = 0b00000001_11000101 ∧ encode (.disableMany 0b10000001) = 0b00000010_10000001 ∧
    encode (.seg 0b01100110) = 0b00000000_01100110 ∧ encode .disableAll = 0b00000011_00000000 ∧
    encode (.disable 0b10011001) = 0b00000100_10011001 ∧ encode .transmit = 0b00000101_00000000 := by decide

/-- I1 to I9: the reason, by R79. -/
theorem test_decode_illegal_in_idle :
    decode .idle 0x0000 = .error .reservedOpcode ∧ decode .idle 0x0005 = .error .reservedOpcode ∧
    decode .idle 0x0301 = .error .nonzeroArgument ∧ decode .idle 0x03FF = .error .nonzeroArgument ∧
    decode .idle 0x0501 = .error .nonzeroArgument ∧ decode .idle 0x0600 = .error .reservedOpcode ∧
    decode .idle 0x0740 = .error .reservedOpcode ∧ decode .idle 0xFFFF = .error .reservedOpcode ∧
    decode .idle 0x8100 = .error .reservedOpcode := by decide

theorem test_decode_illegal_in_list :
    decode .list 0x0100 = .error .malformedElement ∧ decode .list 0x0500 = .error .malformedElement ∧
    decode .list 0xFF00 = .error .malformedElement ∧ decode .shift 0x0105 = .error .notAccepting := by decide

/-- R83: BLANK is 0x0300, 0x0500; NOP is 0x0200; P3 gives the words of DISABLE_LIST 60, 61, 62, 63. -/
theorem test_pseudo_words :
    encodeStream Pseudo.blank.expand = [0x0300, 0x0500] ∧ encodeStream Pseudo.nop.expand = [0x0200] ∧
    encodeStream (Pseudo.disableList [60, 61, 62, 63]).expand = [0x0204, 0x003C, 0x003D, 0x003E, 0x003F] := by decide

theorem test_asmLine : Instr.asmLine (.seg 60) = ".SEG 60" ∧ Instr.asmLine .disableAll = "DISABLE_ALL" := by
  simp [Instr.asmLine, Instr.mnemonic]; rfl

/-! ### The host's two questions: the decoder gives each row's instruction, and step runs it right after reset -/

theorem test_decodeTableWord :
    decodeTableWord 16 0x0105 = some (.enable 5) ∧ decodeTableWord 16 0x0204 = some (.disableMany 4) ∧
    decodeTableWord 16 0x003C = some (.seg 60) ∧ decodeTableWord 16 0x0300 = some .disableAll ∧
    decodeTableWord 16 0x043F = some (.disable 63) ∧ decodeTableWord 16 0x0500 = some .transmit ∧
    decodeTableWord 16 0x0301 = none ∧ decodeTableWord 32 0x10105 = none := by decide

theorem test_step_runs_table_words :
    step (State.reset.withFetchWord 16 0x0105) = exec (.enable 5) State.reset ∧
    step (State.reset.withFetchWord 16 0x0204) = exec (.disableMany 4) State.reset ∧
    step (State.reset.withFetchWord 16 0x003C) = exec (.seg 60) { State.reset with mode := .list, listRem := 1 } ∧
    step (State.reset.withFetchWord 16 0x0300) = exec .disableAll State.reset ∧
    step (State.reset.withFetchWord 16 0x043F) = exec (.disable 63) State.reset ∧
    step (State.reset.withFetchWord 16 0x0500) = exec .transmit State.reset :=
  ⟨rfl, rfl, rfl, rfl, rfl, rfl⟩

/-! ### One step of each instruction -/

/-- V1 and V16. -/
theorem test_enable_first_and_last :
    row (step (offering 0x0100 (idle 0))) = some (0x0100000000000000, .idle, 0, false, false) ∧
    row (step (offering 0x013F (idle 0))) = some (0x0000000000000080, .idle, 0, false, false) := by decide

/-- V17: segment 64 does not set segment 0. -/
theorem test_enable_64_faults : row (step (offering 0x0140 (idle 0))) = some (0, .idle, 0, true, false) := by decide

/-- X4 and X6. -/
theorem test_disable_36_and_63 :
    row (step (offering 0x0424 (idle 0xFFFFFFFFFFFFFFFF))) = some (0xFFFFFFFFEFFFFFFF, .idle, 0, false, false) ∧
    row (step (offering 0x043F (idle 0xFFFFFFFFFFFFFFFF))) = some (0xFFFFFFFFFFFFFF7F, .idle, 0, false, false) := by decide

/-- X8. -/
theorem test_disable_255_faults :
    row (step (offering 0x04FF (idle 0xFFFFFFFFFFFFFFFF))) = some (0xFFFFFFFFFFFFFFFF, .idle, 0, true, false) := by decide

/-- The first row of L1. -/
theorem test_disableMany_4 :
    row (step (offering 0x0204 (idle 0xFFFFFFFFFFFFFFFF))) = some (0xFFFFFFFFFFFFFFFF, .list, 4, false, false) := by decide

/-- L3. -/
theorem test_disableMany_0 : row (step (offering 0x0200 (idle 0xA5))) = some (0xA5, .idle, 0, false, false) := by decide

/-- The second and the last row of L1. -/
theorem test_seg_counts :
    row (step (offering 0x003C (inList 0xFFFFFFFFFFFFFFFF 4))) = some (0xFFFFFFFFFFFFFFEF, .list, 3, false, false) ∧
    row (step (offering 0x003F (inList 0xFFFFFFFFFFFFFF8F 1))) = some (0xFFFFFFFFFFFFFF0F, .idle, 0, false, false) := by decide

/-- L2: an out-of-range element and a malformed one still count. -/
theorem test_seg_faults_count :
    row (step (offering 0x0040 (inList 0xFEFFFFFFFFFFFFFF 4))) = some (0xFEFFFFFFFFFFFFFF, .list, 3, true, false) ∧
    row (step (offering 0x0100 (inList 0xFEFFFFFFFFFFFFFF 3))) = some (0xFEFFFFFFFFFFFFFF, .list, 2, false, true) := by decide

/-- A2, and A4: FAULT_RANGE stays. -/
theorem test_disableAll :
    row (step (offering 0x0300 (idle 0x02108000042000F1))) = some (0, .idle, 0, false, false) ∧
    row (step (offering 0x0300 { idle 0xFF with faultRange := true })) = some (0, .idle, 0, true, false) := by decide

/-- I3, I5 and I7 on the frame of 0xA5 bytes. -/
theorem test_illegal_words :
    [0x0301, 0x0501, 0x0740].map (fun w => row (step (offering w (idle 0xA5A5A5A5A5A5A5A5)))) =
      List.replicate 3 (some (0xA5A5A5A5A5A5A5A5, .idle, 0, false, true)) := by decide

/-- R120: SHIFT is entered and no pin is driven. -/
theorem test_transmit_accept :
    (nextOf (step (offering 0x0500 (idle 0x80)))).map (fun s => (s.mode, s.txStep, s.stepDrives)) =
      some (.shift, 0, [⟨.slatch, false⟩]) ∧
    chain (step (offering 0x0500 (idle 0x80))) = some (false, false, false, 0, 0) := by decide

/-- T9: the drives at TXSTEP 0, 1, 2, 3, 4, 100, 190, 191, 192 and 193, for a W with W[63] = 1, W[62] = 0, W[30] = 1,
W[0] = 1. -/
theorem test_micro_drives :
    [0, 1, 2, 3, 4, 100, 190, 191, 192, 193].map (microDrive 0x8000000040000001) =
      [some ⟨.slatch, false⟩, some ⟨.sdata, true⟩, some ⟨.sclk, true⟩, some ⟨.sclk, false⟩, some ⟨.sdata, false⟩,
       some ⟨.sdata, true⟩, some ⟨.sdata, true⟩, some ⟨.sclk, true⟩, some ⟨.sclk, false⟩, some ⟨.slatch, true⟩] := by decide

/-- T8: the ninth clock edge makes 0x…FFA5 into 0x…FF4A (bit 8 of the frame word 0xA500_0000_0000_00C3 sent is 0). -/
theorem test_clock_edge :
    chain (step { inShift 0xA5000000000000C3 26 with sr := 0xFFFFFFFFFFFFFFA5, out := 0x0F0F0F0F0F0F0F0F }) =
      some (false, true, false, 0xFFFFFFFFFFFFFF4A, 0x0F0F0F0F0F0F0F0F) := by decide

/-- T8, last row: micro-step 193 commits. -/
theorem test_latch_edge :
    chain (step { inShift 0xA5000000000000C3 193 with sdata := true, sr := 0xA5000000000000C3, out := 0x0F0F0F0F0F0F0F0F }) =
      some (true, false, true, 0xA5000000000000C3, 0xA5000000000000C3) := by decide

/-- Z1. -/
theorem test_reset :
    let s : State := { inList 0x02108000042000F1 3 with
      faultRange := true, faultIllegal := true, sdata := true, slatch := true,
      sr := 0x02108000042000F1, out := 0x02108000042000F1, hven := true, inputs := [.reset] }
    row (step s) = some (0, .idle, 0, false, false) ∧
    chain (step s) = some (false, false, false, 0x02108000042000F1, 0x02108000042000F1) ∧
    (nextOf (step s)).map (·.hven) = some true := by decide

/-- P6: RST at TXSTEP = 27 leaves SR and OUT as they were, and the clock falls. -/
theorem test_reset_in_shift :
    chain (step { inShift 0x0420000108400002 27 with
      sclk := true, sr := 0x210000084001E208, out := 0x02108000042000F1, inputs := [.reset] }) =
      some (false, false, false, 0x210000084001E208, 0x02108000042000F1) := by decide

/-- P4, end state: STATUS = 0x0C. -/
theorem test_status_both_faults :
    ({ idle 0 with faultRange := true, faultIllegal := true } : State).status = 0x0C := by decide

/-- P2, end state: the ten glowing segments. -/
theorem test_glowing :
    ({ idle 0 with out := 0x02108000042000F1, hven := true } : State).glowing = [1, 12, 23, 34, 45, 56, 60, 61, 62, 63] := by
  decide

/-- R46: rows 0, 7, 36, 56 and 63 of the map. -/
theorem test_map :
    [0, 7, 36, 56, 63].map (fun k : Fin 64 => ((byteIdx k).val, (bitIdx k).val, bitMask k, (wpos k).val, (wireOrder k).val)) =
      [(7, 0, 0x01, 56, 7), (7, 7, 0x80, 63, 0), (3, 4, 0x10, 28, 35), (0, 0, 0x01, 0, 63), (0, 7, 0x80, 7, 56)] := by decide

/-! ### A fixed topology: EXAMPLE-T of 95_test_vectors.md part 3 -/

/-- Digit d of tube p is segment 10*p + d; the dots are 60 to 63. -/
def exampleT : Config.Topology where
  digits := #v[#v[0, 1, 2, 3, 4, 5, 6, 7, 8, 9], #v[10, 11, 12, 13, 14, 15, 16, 17, 18, 19],
    #v[20, 21, 22, 23, 24, 25, 26, 27, 28, 29], #v[30, 31, 32, 33, 34, 35, 36, 37, 38, 39],
    #v[40, 41, 42, 43, 44, 45, 46, 47, 48, 49], #v[50, 51, 52, 53, 54, 55, 56, 57, 58, 59]]
  dots := #v[60, 61, 62, 63]

/-! ### Witnesses, one theorem for each obligation with hypotheses -/

/-- A word at each end of every range of R76. -/
theorem witness_DecodeFollowsModeAndUpperByte :
    (∀ w ∈ [0x0000#16, 0x00FF#16], w.toNat / 256 = 0) ∧ (∀ w ∈ [0x0100#16, 0xFFFF#16], w.toNat / 256 ≠ 0) ∧
    (∀ w ∈ [0x0100#16, 0x01FF#16], w.toNat / 256 = 1) ∧ (∀ w ∈ [0x0200#16, 0x02FF#16], w.toNat / 256 = 2) ∧
    (0x0300#16).toNat = 3 * 256 ∧ (∀ w ∈ [0x0301#16, 0x03FF#16], w.toNat / 256 = 3 ∧ w.toNat % 256 ≠ 0) ∧
    (∀ w ∈ [0x0400#16, 0x04FF#16], w.toNat / 256 = 4) ∧ (0x0500#16).toNat = 5 * 256 ∧
    (∀ w ∈ [0x0501#16, 0x05FF#16], w.toNat / 256 = 5 ∧ w.toNat % 256 ≠ 0) ∧
    (∀ w ∈ [0x0000#16, 0x00FF#16, 0x0600#16, 0xFFFF#16], w.toNat / 256 = 0 ∨ 6 ≤ w.toNat / 256) := by simp

theorem witness_DecodeOfEncodeIsTheInstruction :
    Instr.wfIn (.enable 255) .idle = true ∧ Instr.wfIn (.disableMany 0) .idle = true ∧ Instr.wfIn (.seg 64) .list = true ∧
    Instr.wfIn .disableAll .idle = true ∧ Instr.wfIn (.disable 63) .idle = true ∧ Instr.wfIn .transmit .idle = true := by decide

theorem witness_DecodedWordIsTheEncoding :
    decode .idle 0x01FF = .ok (.enable 255) ∧ decode .list 0x0000 = .ok (.seg 0) ∧ decode .idle 0x0500 = .ok .transmit := by decide

theorem witness_FrameViewsAgree : 0 < 8 ∧ 7 < 8 ∧ (Fin.last 63).val = 63 := by decide

theorem witness_BitOrderOnTheWire :
    0 ≤ 63 ∧ 63 ≤ 63 ∧ (wireSegment 0).val = 7 ∧ (wireSegment 63).val = 56 := by decide

/-- The two ends of both ranges; for EnableSetsOneSegment, DisableClearsOneSegment and OutOfRangeSegmentIsRejected. -/
theorem witness_SegmentRanges :
    (0#8).toNat < 64 ∧ (63#8).toNat < 64 ∧ 64 ≤ (64#8).toNat ∧ 64 ≤ (255#8).toNat := by decide

theorem witness_EnableSetsOneSegment : (0#8).toNat < 64 ∧ (63#8).toNat < 64 ∧ 64 ≤ (64#8).toNat ∧ 64 ≤ (255#8).toNat :=
  witness_SegmentRanges

theorem witness_DisableClearsOneSegment : (0#8).toNat < 64 ∧ (63#8).toNat < 64 ∧ 64 ≤ (64#8).toNat ∧ 64 ≤ (255#8).toNat :=
  witness_SegmentRanges

theorem witness_DisableManyHeaderBeginsAList : (0 : Byte) = 0 ∧ (1 : Byte) ≠ 0 ∧ (255 : Byte) ≠ 0 := by decide

/-- LISTREM 1, 2 and 255; a well-formed and a malformed word at each end of its range. -/
theorem witness_ListElementClearsAndCounts :
    (∀ n ∈ [1#8, 2#8, 255#8], (inList 0xF0 n).mode = .list ∧ 1 ≤ (inList 0xF0 n).listRem.toNat) ∧
    (63#8).toNat < 64 ∧ 64 ≤ (64#8).toNat ∧
    (∀ w ∈ [0x0100#16, 0xFFFF#16], (offering w (inList 0xF0 1)).mode = .list ∧
      (offering w (inList 0xF0 1)).inputs = .word w :: [] ∧ w.toNat / 256 ≠ 0) := by
  simp [offering, inList, idle, State.powerOn]

theorem witness_DisableAllClearsTheFrame : ∀ w ∈ [0x0301#16, 0x03FF#16], w.toNat / 256 = 3 ∧ w ≠ 0x0300 := by simp

theorem witness_FrameWritesLeavePinsAndChainAlone :
    ∃ t, Instr.enable 5 ≠ .transmit ∧ exec (.enable 5) (idle 0) = .next t := ⟨_, by decide, rfl⟩

theorem witness_StoringNothingLeavesEverySegment :
    (∃ t, exec (.disableMany 4) (idle 0xA5) = .next t) ∧ (∃ t, exec .transmit (idle 0xA5) = .next t) ∧
    (∃ t, exec (.enable 64) (idle 0xA5) = .next t ∧ 64 ≤ (64#8).toNat) ∧
    (∃ t, exec (.disable 64) (idle 0xA5) = .next t ∧ 64 ≤ (64#8).toNat) ∧
    ∃ t, exec (.seg 255) (inList 0xA5 1) = .next t ∧ 64 ≤ (255#8).toNat :=
  ⟨⟨_, rfl⟩, ⟨_, rfl⟩, ⟨_, rfl, by decide⟩, ⟨_, rfl, by decide⟩, ⟨_, rfl, by decide⟩⟩

theorem witness_WritesToDifferentSegmentsCommute : (0 : Byte) ≠ 63 ∧ (63 : Byte) ≠ 64 := by decide

theorem witness_DisableManyEqualsRepeatedDisable :
    (idle 0xFFFFFFFFFFFFFFFF).mode = .idle ∧ (idle 0xFFFFFFFFFFFFFFFF).listRem = 0 ∧
    (idle 0xFFFFFFFFFFFFFFFF).Clean ∧ (∀ g ∈ [0#8], g.toNat < 64) ∧
    [0#8] ≠ [] ∧ [0#8].length ≤ 255 ∧ List.replicate 255 7#8 ≠ [] ∧ (List.replicate 255 7#8).length ≤ 255 :=
  ⟨rfl, rfl, ⟨rfl, rfl⟩, by simp, by decide, by decide, by rw [ne_eq, List.replicate_eq_nil_iff]; decide, by rw [List.length_replicate]⟩

theorem witness_OutOfRangeSegmentIsRejected :
    64 ≤ (64#8).toNat ∧ 64 ≤ (255#8).toNat ∧ (inList 0 1).mode = .list ∧ 1 ≤ (inList 0 1).listRem.toNat := by decide

/-- Each line of R79 at both of its ends. -/
theorem witness_IllegalWordIsRejected :
    (∀ w ∈ [0x0000#16, 0x00FF#16, 0x0600#16, 0xFFFF#16, 0x0301#16, 0x03FF#16, 0x0501#16, 0x05FF#16],
      (offering w (idle 0xA5)).mode = .idle ∧ (offering w (idle 0xA5)).inputs = .word w :: [] ∧
      (w.toNat / 256 = 0 ∨ 6 ≤ w.toNat / 256 ∨ (w.toNat / 256 = 3 ∧ w.toNat % 256 ≠ 0) ∨
        (w.toNat / 256 = 5 ∧ w.toNat % 256 ≠ 0))) ∧
    (∀ w ∈ [0x0100#16, 0xFFFF#16], (offering w (inList 0xA5 1)).mode = .list ∧ 1 ≤ (inList 0xA5 1).listRem.toNat ∧
      w.toNat / 256 ≠ 0) := by
  simp [offering, inList, idle, State.powerOn]

/-- A reset; a range fault, with the flag clear before; an illegal word, with the flag clear before. -/
theorem witness_FaultFlagsAreSetByBadWordsAndClearedByReset :
    (∃ t, step { idle 0 with faultRange := true, inputs := [.reset] } = .next t ∧
      ({ idle 0 with faultRange := true, inputs := [.reset] } : State).nextMove = .reset) ∧
    (∃ t, step (offering 0x0140 (idle 0)) = .next t ∧ (offering 0x0140 (idle 0)).nextMove = .accept 0x0140 ∧
      (idle 0).faultRange = false ∧ (idle 0).faultIllegal = false ∧ t.faultRange = true) ∧
    ∃ t, step (offering 0x0600 (idle 0)) = .next t ∧ (offering 0x0600 (idle 0)).nextMove = .accept 0x0600 ∧
      (idle 0).faultIllegal = false ∧ t.faultIllegal = true :=
  ⟨⟨_, rfl, rfl⟩, ⟨_, rfl, rfl, rfl, rfl, rfl⟩, ⟨_, rfl, rfl, rfl, rfl⟩⟩

theorem witness_FaultFlagsChangeNoBehaviour :
    (∃ t, step (offering 0x0140 (idle 0)) = .next t) ∧ ∃ t, step (inShift 0xA5 0) = .next t := ⟨⟨_, rfl⟩, ⟨_, rfl⟩⟩

theorem witness_StatusVectorBits : 4 ≤ 4 ∧ (4 ≤ 7) := by decide

theorem witness_StepRunsTheDecodedInstruction :
    ((offering 0x0105 (idle 0)).mode ≠ .shift ∧ (offering 0x0105 (idle 0)).inputs = .word 0x0105 :: [] ∧
      decode (offering 0x0105 (idle 0)).mode 0x0105 = .ok (.enable 5)) ∧
    ((offering 0x003F (inList 0 1)).mode ≠ .shift ∧ (offering 0x003F (inList 0 1)).inputs = .word 0x003F :: [] ∧
      decode (offering 0x003F (inList 0 1)).mode 0x003F = .ok (.seg 63)) := by decide

theorem witness_CommandPortHandshake :
    (offering 0x0105 (idle 0)).cmdReady = true ∧ (offering 0x0105 (idle 0)).nextMove = .accept 0x0105 ∧
    (offering 0x0105 (idle 0)).cmdValid = true ∧ (offering 0x0105 (idle 0)).cmdWord? = some 0x0105 ∧
    (inShift 0xA5 193).mode = .shift ∧ ∃ t, step { inShift 0xA5 193 with inputs := [] } = .next t :=
  ⟨rfl, rfl, rfl, rfl, rfl, _, rfl⟩

theorem witness_MovesAreAcceptMicroStepResetHven :
    (offering 0x0500 (idle 0)).nextMove = .accept 0x0500 ∧ (offering 0x0500 (inShift 0 0)).nextMove = .microStep ∧
    ({ inShift 0 5 with inputs := [.reset] } : State).nextMove = .reset ∧
    ({ inShift 0 5 with inputs := [.hven true] } : State).nextMove = .hven true := by decide

/-- Each clause: reset; IDLE with COUNT 0, COUNT 1, TRANSMIT and an illegal word; LIST with LISTREM 1 and 2; SHIFT with TXSTEP
192 and 193; HVEN. -/
theorem witness_ModeTransitions :
    (∃ t, step { inList 0 3 with inputs := [.reset] } = .next t) ∧
    (∀ w ∈ [0x0200#16, 0x0201#16, 0x0500#16, 0x0000#16], ∃ t, step (offering w (idle 0)) = .next t ∧
      (offering w (idle 0)).nextMove = .accept w) ∧
    (∀ n ∈ [1#8, 2#8], ∃ t, step (offering 0x0007 (inList 0 n)) = .next t ∧
      (offering 0x0007 (inList 0 n)).nextMove = .accept 0x0007 ∧ 1 ≤ (inList 0 n).listRem.toNat) ∧
    (∀ n ∈ [192#8, 193#8], ∃ t, step (inShift 0 n) = .next t ∧ (inShift 0 n).nextMove = .microStep) ∧
    (∃ t, step { idle 0 with inputs := [.hven true] } = .next t ∧
      ∀ w, ({ idle 0 with inputs := [.hven true] } : State).nextMove ≠ .accept w) := by
  refine ⟨⟨_, rfl⟩, ?_, ?_, ?_, ⟨_, rfl, fun w h => by cases h⟩⟩ <;> intro x hx <;>
    simp only [List.mem_cons, List.not_mem_nil, or_false] at hx
  · rcases hx with rfl | rfl | rfl | rfl <;> exact ⟨_, rfl, rfl⟩
  · rcases hx with rfl | rfl <;> exact ⟨_, rfl, rfl, by decide⟩
  · rcases hx with rfl | rfl <;> exact ⟨_, rfl, rfl⟩

/-- A state outside SHIFT with LISTREM 0 meets the invariants. -/
theorem inv_idle (w : Word64) (l : List Input) : ({ idle w with inputs := l } : State).Inv where
  list_iff := by simp [idle, State.powerOn]
  txStep_zero := fun _ => rfl
  sclk_low := fun _ => rfl
  slatch_low := fun h => by cases h
  txStep_le := by simp [idle, State.powerOn]
  sclk_high := fun h => by cases h

theorem inv_inList (w : Word64) (n : Byte) (hn : 1 ≤ n.toNat) (l : List Input) :
    ({ inList w n with inputs := l } : State).Inv where
  list_iff := ⟨fun _ => hn, fun _ => rfl⟩
  txStep_zero := fun _ => rfl
  sclk_low := fun _ => rfl
  slatch_low := fun h => by cases h
  txStep_le := by simp [inList, idle, State.powerOn]
  sclk_high := fun h => by cases h

/-- So does a state in SHIFT before micro-step `t`, with SCLK 0, when `t` is no multiple of 3 but 0. -/
theorem inv_inShift (w : Word64) (t : BitVec 8) (ht : t.toNat ≤ 193) (hc : t.toNat = 0 ∨ t.toNat % 3 ≠ 0) (sr out : Word64) :
    ({ inShift w t with sr := sr, out := out } : State).Inv where
  list_iff := by simp [inShift, idle, State.powerOn]
  txStep_zero := fun h => absurd rfl h
  sclk_low := fun h => absurd rfl h
  slatch_low := fun _ _ => rfl
  txStep_le := ht
  sclk_high := fun _ => ⟨fun h => by simp [inShift, idle, State.powerOn] at h, fun ⟨i, _, h⟩ => by
    have e : t.toNat = 1 + 3 * i + 2 := h
    omega⟩

/-- LISTREM 1, 2 and 255 before an element; a header in IDLE with COUNT 0 and 255; no accept. -/
theorem witness_ListRemCountsDownOnly :
    (∀ n ∈ [1#8, 2#8, 255#8], (offering 0x0100 (inList 0 n)).Inv ∧ (∃ t, step (offering 0x0100 (inList 0 n)) = .next t) ∧
      (offering 0x0100 (inList 0 n)).nextMove = .accept 0x0100) ∧
    (∀ w ∈ [0x0200#16, 0x02FF#16], (offering w (idle 0)).Inv ∧ (∃ t, step (offering w (idle 0)) = .next t) ∧
      (offering w (idle 0)).nextMove = .accept w ∧ ∃ n, decode .idle w = .ok (.disableMany n)) ∧
    ((inShift 0 1).Inv ∧ (∃ t, step (inShift 0 1) = .next t) ∧ (inShift 0 1).nextMove = .microStep) := by
  refine ⟨?_, ?_, inv_inShift 0 1 (by decide) (by decide) 0 0, ⟨_, rfl⟩, rfl⟩ <;> intro x hx <;>
    simp only [List.mem_cons, List.not_mem_nil, or_false] at hx
  · rcases hx with rfl | rfl | rfl <;> exact ⟨inv_inList 0 _ (by decide) _, ⟨_, rfl⟩, rfl⟩
  · rcases hx with rfl | rfl <;> exact ⟨inv_idle 0 _, ⟨_, rfl⟩, rfl, ⟨_, rfl⟩⟩

/-- TXSTEP 0, 1 and 193. -/
theorem witness_TxStepCountsMicroSteps :
    ∀ t ∈ [0#8, 1#8, 193#8], (inShift 0xA5 t).Inv ∧ (∃ u, step (inShift 0xA5 t) = .next u) ∧
      (inShift 0xA5 t).nextMove = .microStep := by
  intro x hx
  simp only [List.mem_cons, List.not_mem_nil, or_false] at hx
  rcases hx with rfl | rfl | rfl <;> exact ⟨inv_inShift 0xA5 _ (by decide) (by decide) 0 0, ⟨_, rfl⟩, rfl⟩

/-- The first and the last data, rise and fall micro-step. -/
theorem witness_MicroStepsInOrder :
    (∀ t ∈ [0#8, 1#8, 2#8, 3#8, 190#8, 191#8, 192#8, 193#8], (inShift 0xA5 t).nextMove = .microStep) ∧
    (1#8).toNat = 1 + 3 * 0 ∧ (190#8).toNat = 1 + 3 * 63 ∧ (2#8).toNat = 2 + 3 * 0 ∧ (191#8).toNat = 2 + 3 * 63 ∧
    (3#8).toNat = 3 + 3 * 0 ∧ (192#8).toNat = 3 + 3 * 63 := by decide

theorem witness_MachineStopsOnlyWhereNoMoveExists :
    (idle 0).Ended ∧ (inList 0 1).Stuck ∧ (inList 0 1).Inv ∧ step (idle 0) = .fault .streamEnded ∧
    step (inList 0 1) = .fault .stuckInList :=
  ⟨⟨rfl, rfl⟩, ⟨rfl, rfl⟩, inv_inList 0 1 (by decide) [], rfl, rfl⟩

/-- The start of a transmit, with nothing offered and with the next word already held. -/
theorem witness_TransmitIsOneMacroStep :
    (inShift 0xA5 0).mode = .shift ∧ (inShift 0xA5 0).txStep = 0 ∧ (inShift 0xA5 0).sclk = false ∧
    (inShift 0xA5 0).inputs = ([] : List CmdWord).map .word ∧
    (offering 0x0300 (inShift 0xA5 0)).mode = .shift ∧ (offering 0x0300 (inShift 0xA5 0)).txStep = 0 ∧
    (offering 0x0300 (inShift 0xA5 0)).sclk = false ∧ (offering 0x0300 (inShift 0xA5 0)).inputs = [0x0300#16].map .word := by
  decide

/-- As before, with an old frame in the chain; k is 0 and 64. -/
theorem witness_ChainAfterEachClockEdge :
    let s : State := offering 0x0300 { inShift 0xA5000000000000C3 0 with sr := 0xFFFFFFFFFFFFFFFF, slatch := true }
    s.mode = .shift ∧ s.txStep = 0 ∧ s.sclk = false ∧ s.inputs = [0x0300#16].map .word ∧ 0 ≤ 64 ∧ 64 ≤ 64 := by decide

theorem witness_PinTraceOfOneTransmit :
    let s : State := offering 0x0300 (inShift 0xA5 0)
    s.mode = .shift ∧ s.txStep = 0 ∧ s.inputs = [0x0300#16].map .word := by decide

/-- TXSTEP 0 and 193; nothing offered, and a word held. -/
theorem witness_TransmitAlwaysCompletes :
    (∀ t ∈ [0#8, 193#8], (inShift 0xA5 t).mode = .shift ∧ (inShift 0xA5 t).txStep.toNat ≤ 193 ∧
      (inShift 0xA5 t).inputs = ([] : List CmdWord).map .word ∧ 0 < 194 - (inShift 0xA5 t).txStep.toNat) ∧
    (offering 0x0500 (inShift 0xA5 1)).inputs = [0x0500#16].map .word := by decide

theorem witness_OnlyTransmitAndResetDrivePins :
    ∃ t, step (offering 0x0300 (idle 0xA5)) = .next t ∧ (offering 0x0300 (idle 0xA5)).nextMove ≠ .microStep ∧
      (offering 0x0300 (idle 0xA5)).nextMove ≠ .reset := ⟨_, rfl, by decide, by decide⟩

/-- A step that makes the clock rise, and one that makes it fall. -/
theorem witness_ChainShiftsExactlyOnClockRise :
    (∃ t, step (inShift 0xA5 2) = .next t ∧ (inShift 0xA5 2).sclk = false ∧ t.sclk = true) ∧
    ∃ t, step { inShift 0xA5 3 with sclk := true } = .next t ∧ ¬(false = true ∧ t.sclk = true) :=
  ⟨⟨_, rfl, rfl, rfl⟩, ⟨_, rfl, by decide⟩⟩

/-- A step that makes the latch rise, and one that makes it fall. -/
theorem witness_LatchLoadsExactlyOnLatchRise :
    (∃ t, step (inShift 0xA5 193) = .next t ∧ (inShift 0xA5 193).slatch = false ∧ t.slatch = true) ∧
    ∃ t, step { inShift 0xA5 0 with slatch := true } = .next t ∧ t.slatch = false :=
  ⟨⟨_, rfl, rfl, rfl⟩, ⟨_, rfl, rfl⟩⟩

theorem witness_ClockRisesOnlyWithLatchLow :
    ∃ t, (inShift 0xA5 191).Inv ∧ step (inShift 0xA5 191) = .next t ∧ (inShift 0xA5 191).sclk = false ∧ t.sclk = true :=
  ⟨_, inv_inShift 0xA5 191 (by decide) (by decide) 0 0, rfl, rfl, rfl⟩

theorem witness_FrameIsStableDuringShift :
    ∃ t, step (inShift 0xA5 1) = .next t ∧ (inShift 0xA5 1).mode = .shift ∧ (inShift 0xA5 1).nextMove ≠ .reset :=
  ⟨_, rfl, rfl, by decide⟩

theorem witness_StepKeepsSequencerInvariant :
    (∃ t, (inShift 0xA5 193).Inv ∧ step (inShift 0xA5 193) = .next t) ∧
    ∃ t, (offering 0x0005 (inList 0 1)).Inv ∧ step (offering 0x0005 (inList 0 1)) = .next t :=
  ⟨⟨_, inv_inShift 0xA5 193 (by decide) (by decide) 0 0, rfl⟩, ⟨_, inv_inList 0 1 (by decide) _, rfl⟩⟩

/-- At the end of a transmit of 0xA500_0000_0000_00C3 all 64 bits are in the chain. -/
theorem chainInv_last (out : Word64) :
    ({ inShift 0xA5000000000000C3 193 with sr := 0xA5000000000000C3, out := out } : State).ChainInv where
  low_stages := by
    intro _ j hj
    have e : ({ inShift 0xA5000000000000C3 193 with sr := 0xA5000000000000C3, out := out } : State).edges = 64 := by
      show (193#8).toNat / 3 = 64
      decide
    rw [e, Nat.sub_self, Nat.zero_add]
    have w : ({ inShift 0xA5000000000000C3 193 with sr := 0xA5000000000000C3, out := out } : State).W = 0xA5000000000000C3 := by
      show frameWord (frameOf 0xA5000000000000C3) = _
      decide
    rw [w]
  data_ready := fun _ h => absurd (show (193#8).toNat % 3 = 2 from h) (by decide)

theorem witness_StepKeepsChainInvariant :
    ∃ t, ({ inShift 0xA5000000000000C3 193 with sr := 0xA5000000000000C3, out := 0 } : State).Inv ∧
      ({ inShift 0xA5000000000000C3 193 with sr := 0xA5000000000000C3, out := 0 } : State).ChainInv ∧
      step { inShift 0xA5000000000000C3 193 with sr := 0xA5000000000000C3, out := 0 } = .next t :=
  ⟨_, inv_inShift _ 193 (by decide) (by decide) _ _, chainInv_last 0, rfl⟩

theorem witness_OnlyWholeFramesReachTheLatch :
    ∃ t, ({ inShift 0xA5000000000000C3 193 with sr := 0xA5000000000000C3, out := 0 } : State).Inv ∧
      ({ inShift 0xA5000000000000C3 193 with sr := 0xA5000000000000C3, out := 0 } : State).ChainInv ∧
      step { inShift 0xA5000000000000C3 193 with sr := 0xA5000000000000C3, out := 0 } = .next t ∧ t.out ≠ 0 :=
  ⟨_, inv_inShift _ 193 (by decide) (by decide) _ _, chainInv_last 0, rfl, by decide⟩

theorem witness_ResetEffect : ({ inShift 0xA5 27 with inputs := [.reset] } : State).inputs = .reset :: [] := rfl

theorem witness_ValuesAfterReset :
    (∃ s, s = State.powerOn 0x5A5AF00FDEADBEEF 0xFFFF0000AAAA5555) ∧
    ∃ t, step { inList 0xA5 3 with inputs := [.reset] } = .next t ∧
      ({ inList 0xA5 3 with inputs := [.reset] } : State).nextMove = .reset ∧ t.rst = false :=
  ⟨⟨_, rfl⟩, ⟨_, rfl, rfl, rfl⟩⟩

/-- The hypothesis, and the hypotheses of the last clause at its first micro-step. -/
theorem witness_StartupBlanksTheDisplay :
    (idle 0xA5).sclk = false ∧ (idle 0xA5).hven = false ∧ ∃ a b u, exec .disableAll (idle 0xA5) = .next a ∧
      exec .transmit a = .next b ∧ microSteps 1 b = .next u := ⟨rfl, rfl, _, _, _, rfl, rfl, rfl⟩

theorem witness_CompletedTransmitShowsTheFrame :
    let s : State := offering 0x0300 { inShift 0x8000000000000000 0 with hven := true }
    s.mode = .shift ∧ s.txStep = 0 ∧ s.sclk = false ∧ s.inputs = [0x0300#16].map .word := by decide

/-- Power-on with a lit latch, ENABLE 7, TRANSMIT, and HVEN raised right after the commit: the shortest kind of run that meets all
the hypotheses, since nothing may glow before a commit. -/
def litStart : State :=
  { State.powerOn 0xFFFFFFFFFFFFFFFF 0xFFFFFFFFFFFFFFFF with
    inputs := [.word 0x0107, .word 0x0500] ++ List.replicate 194 .wait ++ [.hven true] }

theorem witness_OnlyCommittedFramesGlow :
    darkUntilCommit 197 litStart = true ∧
    (nextOf (Sys2Proof.core.run 197 litStart)).map (fun t => (t.glows 7, t.glows 8)) = some (true, false) := by
  decide +kernel

theorem witness_FiniteStreamReachesItsEnd : ({ idle 0 with inputs := [.word 0x0107, .word 0x0500] } : State).Inv := inv_idle 0 _

/-- A good stream, and one of each kind of bad one: an operand of 64, an illegal word, a list left unfinished. -/
theorem witness_RunEndsCleanExactlyOnAGoodStream :
    (∀ stream : List CmdWord, ({ idle 0 with inputs := stream.map .word } : State).Inv) ∧ (idle 0).Clean ∧ (idle 0).mode = .idle ∧
    (∃ l : List Instr, [0x0107#16, 0x0201#16, 0x003F#16, 0x0500#16] = encodeStream l ∧ streamWf l = true ∧
      ∀ i ∈ l, i.inRange = true) ∧
    (step (offering 0x0140 (idle 0)) = .next { idle 0 with faultRange := true }) ∧
    (step (offering 0x0600 (idle 0)) = .next { idle 0 with faultIllegal := true }) ∧
    ∃ t, step (offering 0x0201 (idle 0)) = .next t ∧ t.Stuck :=
  ⟨fun _ => inv_idle 0 _, ⟨rfl, rfl⟩, rfl, ⟨[.enable 7, .disableMany 1, .seg 63, .transmit], by decide, by decide, by decide⟩,
    rfl, rfl, _, rfl, rfl, rfl⟩

theorem witness_ValidTopologyNeverFaults : exampleT.Valid ∧ 0 ∈ exampleT.entries ∧ 63 ∈ exampleT.entries := by
  have e : exampleT.entries = List.range 64 := by decide
  exact ⟨by unfold Config.Topology.Valid; rw [e], by rw [e]; decide, by rw [e]; decide⟩

end Sys2Proof.Tests
end

section
/-! SUPPORT. The proofs of the family 10_state.md: the control triple (MODE, LISTREM, TXSTEP) over one step (R17 to R19), the
views of the frame (R12, R13) and the values after RST (R32). -/

namespace Sys2Proof.Machine

/-! ### The next move, read from its name -/

theorem step_accept {s : State} {w : CmdWord} (hn : s.nextMove = .accept w) : step s = acceptWord w s.takeInput := by
  simp only [step, performMove, hn]

theorem step_of_reset {s : State} (hn : s.nextMove = .reset) : step s = .next (applyReset s.takeInput) := by
  simp only [step, performMove, hn]

/-! ### The control triple after each operation -/

@[simp] theorem loadList_mode (n : Byte) (s : State) : (loadList n s).mode = if n = 0 then s.mode else .list := by
  unfold loadList; split <;> rfl

@[simp] theorem loadList_listRem (n : Byte) (s : State) : (loadList n s).listRem = if n = 0 then s.listRem else n := by
  unfold loadList; split <;> rfl

/-- Every accept in LIST, whatever the word, is one counted element (R104, R142). -/
theorem acceptWord_list {w : CmdWord} {s t : State} (hm : s.mode = .list) (h : acceptWord w s = .next t) :
    ∃ u, t = countElement u ∧ u.mode = s.mode ∧ u.listRem = s.listRem ∧ u.txStep = s.txStep := by
  rcases acceptWord_next h with ⟨i, hd, he⟩ | ⟨e, -, rfl⟩
  · rw [hm] at hd
    obtain ⟨-, rfl⟩ := (decodeList_ok_iff w i).1 hd
    rw [exec_seg, Host.Outcome.next.injEq] at he
    exact ⟨segWrite (argField w) false s, he.symm, by simp, by simp, by simp⟩
  · exact ⟨raise .illegal s, rejectWord_of_list hm, by simp, by simp, by simp⟩

theorem decode_idle_ne_seg (w : CmdWord) (g : Byte) : decode .idle w ≠ .ok (.seg g) := by
  intro h
  simpa using (decodeIdle_ok_iff w _).1 h

/-- What one step does to the control triple of R16, from state `s` to state `t`: one case for each row of R17's table, with
LISTREM (R18) and TXSTEP (R19) beside MODE. -/
inductive ControlStep (s t : State) : Prop where
  /-- IDLE accepts DISABLE_MANY n. -/
  | header (w : CmdWord) (n : Byte) (hn : s.nextMove = .accept w) (hm : s.mode = .idle)
      (hd : decode .idle w = .ok (.disableMany n)) (mode : t.mode = if n = 0 then .idle else .list)
      (listRem : t.listRem = if n = 0 then s.listRem else n) (txStep : t.txStep = s.txStep)
  /-- IDLE accepts TRANSMIT. -/
  | transmit (w : CmdWord) (hn : s.nextMove = .accept w) (hm : s.mode = .idle) (hd : decode .idle w = .ok .transmit)
      (mode : t.mode = .shift) (listRem : t.listRem = s.listRem) (txStep : t.txStep = 0)
  /-- IDLE accepts any other word, legal or not. -/
  | other (w : CmdWord) (hn : s.nextMove = .accept w) (hm : s.mode = .idle)
      (hh : ∀ n, decode .idle w ≠ .ok (.disableMany n)) (ht : decode .idle w ≠ .ok .transmit)
      (mode : t.mode = .idle) (listRem : t.listRem = s.listRem) (txStep : t.txStep = s.txStep)
  /-- LIST accepts an element, whatever its bits. -/
  | element (w : CmdWord) (hn : s.nextMove = .accept w) (hm : s.mode = .list)
      (mode : t.mode = if s.listRem.toNat ≤ 1 then .idle else .list) (listRem : t.listRem.toNat = s.listRem.toNat - 1)
      (txStep : t.txStep = s.txStep)
  /-- SHIFT makes the micro-step at TXSTEP 193. -/
  | lastMicroStep (hn : s.nextMove = .microStep) (hm : s.mode = .shift) (hx : s.txStep.toNat = 193)
      (mode : t.mode = .idle) (listRem : t.listRem = s.listRem) (txStep : t.txStep = 0)
  /-- SHIFT makes a micro-step before it. -/
  | microStep (hn : s.nextMove = .microStep) (hm : s.mode = .shift) (hx : s.txStep.toNat < 193)
      (mode : t.mode = .shift) (listRem : t.listRem = s.listRem) (txStep : t.txStep.toNat = s.txStep.toNat + 1)
  /-- RST. -/
  | reset (hn : s.nextMove = .reset) (mode : t.mode = .idle) (listRem : t.listRem = 0) (txStep : t.txStep = 0)
  /-- HVEN changes, or the host waits in IDLE or LIST. -/
  | keep (ha : ∀ w, s.nextMove ≠ .accept w) (hs : s.nextMove ≠ .microStep) (hr : s.nextMove ≠ .reset)
      (mode : t.mode = s.mode) (listRem : t.listRem = s.listRem) (txStep : t.txStep = s.txStep)

/-- An accept in IDLE: a header, a TRANSMIT, or a word that leaves the control triple alone. -/
theorem acceptWord_idle_control {w : CmdWord} {s t : State} (hn : s.nextMove = .accept w) (hm : s.mode = .idle)
    (h : acceptWord w s.takeInput = .next t) : ControlStep s t := by
  rcases acceptWord_next h with ⟨i, hd, he⟩ | ⟨e, hd, rfl⟩ <;> rw [takeInput_mode, hm] at hd
  · cases i with
    | disableMany n =>
      obtain rfl := Host.Outcome.next.inj he
      exact .header w n hn hm hd (by simp [hm]) (by simp) (by simp)
    | transmit =>
      obtain rfl := Host.Outcome.next.inj he
      exact .transmit w hn hm hd rfl rfl rfl
    | seg g => exact absurd hd (decode_idle_ne_seg w g)
    | enable | disable | disableAll =>
      obtain rfl := Host.Outcome.next.inj he
      exact .other w hn hm (by simp [hd]) (by simp [hd]) (by simp [hm]) (by simp) (by simp)
  · rw [rejectWord_of_not_list (by simp [hm])]
    exact .other w hn hm (by simp [hd]) (by simp [hd]) (by simp [hm]) (by simp) (by simp)

/-- An accept in LIST. -/
theorem acceptWord_list_control {w : CmdWord} {s t : State} (hn : s.nextMove = .accept w) (hm : s.mode = .list)
    (h : acceptWord w s.takeInput = .next t) : ControlStep s t := by
  obtain ⟨u, rfl, hum, hur, hut⟩ := acceptWord_list (by simpa using hm) h
  rw [takeInput_listRem] at hur
  have hrem : (listRemAfter u).toNat = s.listRem.toNat - 1 := by rw [listRemAfter_toNat, hur]
  have hzero : listRemAfter u = 0 ↔ s.listRem.toNat ≤ 1 := by
    rw [← BitVec.toNat_inj, hrem]; simp [Nat.sub_eq_zero_iff_le]
  exact .element w hn hm (by simp only [countElement_mode, hzero, hum, takeInput_mode, hm]) hrem hut

/-- A micro-step, at TXSTEP 193 or before it. -/
theorem microStep_controlStep {s t : State} (hn : s.nextMove = .microStep) (hm : s.mode = .shift)
    (h : microStep s.takeInput = .next t) : ControlStep s t := by
  obtain ⟨hlast, hbefore⟩ := microStep_control h
  have hle : s.txStep.toNat ≤ 193 := (microStep_next h).1
  have hrem : t.listRem = s.listRem := (microStep_frame h).2.1
  by_cases hx : s.txStep.toNat = 193
  · obtain ⟨hmode, htx⟩ := hlast hx
    exact .lastMicroStep hn hm hx hmode hrem htx
  · obtain ⟨hmode, htx⟩ := hbefore hx
    exact .microStep hn hm (by omega) (hmode.trans hm) hrem htx

/-- Every step that answers a next state moves the control triple in one of the ways of `ControlStep`. -/
theorem step_control {s t : State} (h : step s = .next t) : ControlStep s t := by
  rcases nextMove_cases s with ⟨w, -, -, hm, hn⟩ | ⟨hm, -, -, hn⟩ | ⟨-, -, hn⟩ | ⟨l, rest, hi, hn⟩ |
    ⟨rest, hi, hm, hn⟩ | ⟨hi, hm, -⟩
  · rw [step_accept hn] at h
    cases hmode : s.mode with
    | idle => exact acceptWord_idle_control hn hmode h
    | list => exact acceptWord_list_control hn hmode h
    | shift => exact absurd hmode hm
  · rw [step_microStep hn] at h
    exact microStep_controlStep hn hm h
  · rw [step_of_reset hn] at h
    obtain rfl := Host.Outcome.next.inj h
    exact .reset hn rfl rfl rfl
  · rw [step_hven hi] at h
    obtain rfl := Host.Outcome.next.inj h
    exact .keep (by simp [hn]) (by simp [hn]) (by simp [hn]) rfl rfl rfl
  · rw [step_wait hi hm] at h
    obtain rfl := Host.Outcome.next.inj h
    exact .keep (by simp [hn]) (by simp [hn]) (by simp [hn]) rfl rfl rfl
  · rw [step_nil hi hm] at h
    cases h

/-! ### The obligations about the control triple -/

/-- Settles O27, by the cases of `ControlStep`: each clause's next move leaves only the rows of R17 it speaks of. -/
theorem modeTransitions : Obligations.ModeTransitions := by
  unfold Obligations.ModeTransitions
  intro s t h
  cases step_control h with
  | header w n hn hm hd mode _ _ => simp [hn, hm, hd, mode]
  | transmit w hn hm hd mode _ _ => simp [hn, hm, hd, mode]
  | other w hn hm hh ht mode _ _ =>
    refine ⟨by simp [hn], ?_, by simp [hm], by simp [hn], by simp [hn]⟩
    intro v hv _
    obtain rfl : w = v := by simpa [hn] using hv
    rw [mode]
    split
    · exact absurd ‹_› (hh _)
    · exact absurd ‹_› ht
    · rfl
  | element w hn hm mode _ _ =>
    refine ⟨by simp [hn], by simp [hm], ?_, by simp [hn], by simp [hn]⟩
    intro _ _ _ hpos
    have hone : s.listRem.toNat ≤ 1 ↔ s.listRem.toNat = 1 := by omega
    simp only [mode, hone]
  | lastMicroStep hn hm hx mode _ _ => simp [hn, hm, hx, mode]
  | microStep hn hm hx mode _ _ => simp [hn, hm, hx.ne, mode]
  | reset hn mode _ _ => simp [hn, mode]
  | keep ha hs hr mode _ _ => simp [ha, hs, hr, mode]

/-- I-a read outside LIST (R18, R20). -/
theorem State.Inv.listRem_zero {s : State} (hs : s.Inv) (hm : s.mode ≠ .list) : s.listRem = 0 := by
  have hlt : ¬1 ≤ s.listRem.toNat := fun c => hm (hs.list_iff.2 c)
  exact BitVec.eq_of_toNat_eq (by simpa using hlt)

/-- I-a is kept by every step (R18, R20). -/
theorem step_list_iff {s t : State} (hs : s.Inv) (h : step s = .next t) : t.mode = .list ↔ 1 ≤ t.listRem.toNat := by
  cases step_control h with
  | header w n _ hm _ mode listRem _ =>
    have hrem := hs.listRem_zero (by simp [hm])
    by_cases hz : n = 0
    · simp [mode, listRem, hz, hrem]
    · have hpos : n.toNat ≠ 0 := fun c => hz (BitVec.eq_of_toNat_eq c)
      simp only [mode, listRem, hz, if_false, true_iff]
      omega
  | transmit _ _ hm _ mode listRem _ => simp [mode, listRem, hs.listRem_zero, hm]
  | other _ _ hm _ _ mode listRem _ => simp [mode, listRem, hs.listRem_zero, hm]
  | element _ _ _ mode listRem _ =>
    rw [mode, listRem]
    split
    · simp only [reduceCtorEq, false_iff]; omega
    · simp only [true_iff]; omega
  | lastMicroStep _ hm _ mode listRem _ => simp [mode, listRem, hs.listRem_zero, hm]
  | microStep _ hm _ mode listRem _ => simp [mode, listRem, hs.listRem_zero, hm]
  | reset _ mode listRem _ => simp [mode, listRem]
  | keep _ _ _ mode listRem _ => rw [mode, listRem]; exact hs.list_iff

/-- Settles O28: the first clause is I-a after the step, the others are the cases of `ControlStep`. -/
theorem listRemCountsDownOnly : Obligations.ListRemCountsDownOnly := by
  unfold Obligations.ListRemCountsDownOnly
  intro s t hs h
  have hzero : t.mode ≠ .list → t.listRem = 0 := fun hm =>
    BitVec.eq_of_toNat_eq (by simpa [step_list_iff hs h] using hm)
  refine ⟨hzero, ?_⟩
  cases step_control h with
  | header w n hn hm hd mode listRem _ =>
    refine ⟨by simp [hm], ?_, by simp [hn]⟩
    intro v m hv _ hd'
    obtain rfl : w = v := by simpa [hn] using hv
    obtain rfl : n = m := by simpa [hd] using hd'
    by_cases hz : n = 0
    · rw [hz]; exact hzero (by simp [mode, hz])
    · rw [listRem, if_neg hz]
  | transmit w hn hm hd _ _ _ =>
    refine ⟨by simp [hm], ?_, by simp [hn]⟩
    intro v m hv _ hd'
    obtain rfl : w = v := by simpa [hn] using hv
    simp [hd] at hd'
  | other w hn hm hh _ _ _ _ =>
    refine ⟨by simp [hm], ?_, by simp [hn]⟩
    intro v m hv _ hd
    obtain rfl : w = v := by simpa [hn] using hv
    exact absurd hd (hh m)
  | element w hn hm _ listRem _ =>
    have hpos := hs.list_iff.1 hm
    exact ⟨fun _ _ _ => by omega, by simp [hm], by simp [hn]⟩
  | lastMicroStep hn _ _ _ listRem _ => simp [hn, listRem]
  | microStep hn _ _ _ listRem _ => simp [hn, listRem]
  | reset hn _ _ _ => simp [hn]
  | keep ha _ _ _ listRem _ => simp [ha, listRem]

/-- I-e and I-b after a step (R19, R20). -/
theorem step_txStep_bounds {s t : State} (hs : s.Inv) (h : step s = .next t) :
    t.txStep.toNat ≤ 193 ∧ (t.mode ≠ .shift → t.txStep = 0) := by
  cases step_control h with
  | header _ _ _ hm _ _ _ txStep => simp [txStep, hs.txStep_zero, hm]
  | transmit _ _ _ _ _ _ txStep => simp [txStep]
  | other _ _ hm _ _ _ _ txStep => simp [txStep, hs.txStep_zero, hm]
  | element _ _ hm _ _ txStep => simp [txStep, hs.txStep_zero, hm]
  | lastMicroStep _ _ _ _ _ txStep => simp [txStep]
  | microStep _ _ hx mode _ txStep => exact ⟨by omega, fun c => absurd mode c⟩
  | reset _ _ _ txStep => simp [txStep]
  | keep _ _ _ mode _ txStep => rw [mode, txStep]; exact ⟨hs.txStep_le, hs.txStep_zero⟩

/-- Settles O29: the bounds are I-e and I-b after the step, the count is R19's two cases of a micro-step. -/
theorem txStepCountsMicroSteps : Obligations.TxStepCountsMicroSteps := by
  unfold Obligations.TxStepCountsMicroSteps
  intro s t hs h
  obtain ⟨hle, hzero⟩ := step_txStep_bounds hs h
  refine ⟨hle, fun hm => by simp [hzero hm], fun hmove => ?_⟩
  cases step_control h with
  | lastMicroStep _ _ hx _ _ txStep => simp [hx, txStep]
  | microStep _ _ hx _ _ txStep => rw [if_neg hx.ne, txStep]
  | header _ _ hn => simp [hn] at hmove
  | transmit _ hn => simp [hn] at hmove
  | other _ hn => simp [hn] at hmove
  | element _ hn => simp [hn] at hmove
  | reset hn => simp [hn] at hmove
  | keep _ hs _ => exact absurd hmove hs

/-! ### The views of the frame -/

/-- Settles O6: R12 is `frameWord_getLsbD` at 8*i + b, R13 is the definition of F, and the two meet at `wpos`. -/
theorem frameViewsAgree : Obligations.FrameViewsAgree := by
  unfold Obligations.FrameViewsAgree
  intro s
  refine ⟨?_, fun k => rfl, fun k => ?_⟩
  · intro i b hi hb
    have hdiv : (8 * i + b) / 8 = i := by omega
    have hmod : (8 * i + b) % 8 = b := by omega
    rw [State.W, frameWord_getLsbD _ _ (by omega)]
    simp only [hdiv, hmod]
  · rw [← wpos_val, W_getLsbD_wpos]

/-! ### The values after RST -/

/-- The outputs of R32 follow from the registers: with the frame, the control triple, the flags and the pins cleared, STATUS,
BUSY, FAULT and FRAME_Q are 0. -/
theorem resetValues_of_cleared {s : State} (frame : s.frame = Vector.replicate 8 0x00) (mode : s.mode = .idle)
    (listRem : s.listRem = 0) (txStep : s.txStep = 0) (faultRange : s.faultRange = false)
    (faultIllegal : s.faultIllegal = false) (pins : s.sdata = false ∧ s.sclk = false ∧ s.slatch = false) :
    s.ResetValues where
  frame := by simp [frame]
  mode := mode
  listRem := listRem
  txStep := txStep
  faultRange := faultRange
  faultIllegal := faultIllegal
  pins := pins
  status := by simp only [State.status, State.busy, State.listFlag, mode, faultRange, faultIllegal]; rfl
  busy := by simp [State.busy, mode]
  fault := by simp [State.fault, faultRange, faultIllegal]
  frameQ := by rw [State.frameQ, State.W, frame]; exact frameWord_zero

/-- CMD_READY outside SHIFT, once RST is released (R24). -/
theorem cmdReady_of_released {s : State} (hm : s.mode ≠ .shift) (hr : s.rst = false) : s.cmdReady = true := by
  simp [State.cmdReady, hm, hr]

/-- Settles O46: power-on and the reset step clear the same registers, and neither writes SR, OUT or HVEN. -/
theorem valuesAfterReset : Obligations.ValuesAfterReset := by
  unfold Obligations.ValuesAfterReset
  constructor
  · rintro sr0 out0 s rfl
    exact ⟨resetValues_of_cleared rfl rfl rfl rfl rfl rfl ⟨rfl, rfl, rfl⟩, cmdReady_of_released nofun rfl, rfl, rfl, rfl⟩
  · intro s t h hn
    rw [step_of_reset hn] at h
    obtain rfl := Host.Outcome.next.inj h
    exact ⟨resetValues_of_cleared rfl rfl rfl rfl rfl rfl ⟨rfl, rfl, rfl⟩, cmdReady_of_released (by simp), by simp,
      by simp, by simp⟩

end Sys2Proof.Machine
end

section
/-! SUPPORT. The proofs of the family 30_encoding.md: decoding as a function of MODE and word, in numbers (R76). -/

namespace Sys2Proof

@[simp] theorem decode_idle (w : CmdWord) : decode .idle w = decodeIdle w := rfl

@[simp] theorem decode_list (w : CmdWord) : decode .list w = decodeList w := rfl

/-- Settles O2: in each MODE, the accepted words are those of `decodeList_ok_iff` and `decodeIdle_ok_iff` and the illegal
ones those of `decodeList_error_iff` and `decodeIdle_error_iff`, with the two fields read as the word's quotient and
remainder by 256. -/
theorem decodeFollowsModeAndUpperByte : Obligations.DecodeFollowsModeAndUpperByte := by
  unfold Obligations.DecodeFollowsModeAndUpperByte
  intro w
  have op := opField_eq_iff w
  have arg := argField_eq_iff w 0 (by omega)
  simp only [decode_idle, decode_list, ← argField_eq]
  refine ⟨?listSeg, ?listIllegal, ?enable, ?disableMany, ?disableAll, ?illegal3, ?disable, ?transmit, ?illegal5, ?reserved⟩
  case listSeg => exact fun h => (decodeList_ok_iff w _).2 ⟨(op 0 (by omega)).2 h, rfl⟩
  case listIllegal => exact fun h => (decodeList_error_iff w).2 fun z => h ((op 0 (by omega)).1 z)
  case enable => exact fun h => (decodeIdle_ok_iff w _).2 (.inl ⟨(op 1 (by omega)).2 h, rfl⟩)
  case disableMany => exact fun h => (decodeIdle_ok_iff w _).2 (.inr (.inl ⟨(op 2 (by omega)).2 h, rfl⟩))
  case disableAll =>
    intro h
    have h3 : opField w = 0x03 := (op 3 (by omega)).2 (by omega)
    have h0 : argField w = 0x00 := arg.2 (by omega)
    exact (decodeIdle_ok_iff w _).2 (.inr (.inr (.inl ⟨h3, h0, rfl⟩)))
  case disable => exact fun h => (decodeIdle_ok_iff w _).2 (.inr (.inr (.inr (.inl ⟨(op 4 (by omega)).2 h, rfl⟩))))
  case transmit =>
    intro h
    have h5 : opField w = 0x05 := (op 5 (by omega)).2 (by omega)
    have h0 : argField w = 0x00 := arg.2 (by omega)
    exact (decodeIdle_ok_iff w _).2 (.inr (.inr (.inr (.inr ⟨h5, h0, rfl⟩))))
  case illegal3 => exact fun h3 h0 => (decodeIdle_error_iff w).2 (by omega)
  case illegal5 => exact fun h5 h0 => (decodeIdle_error_iff w).2 (by omega)
  case reserved => exact fun h => (decodeIdle_error_iff w).2 (by omega)

end Sys2Proof
end

section
/-! SUPPORT. The proofs of the family 40_frame_write.md: ENABLE and DISABLE (R101, R108), DISABLE_MANY and its list elements
(R103, R104), DISABLE_ALL (R106). -/

namespace Sys2Proof.Machine

/-! ### The words of the instructions with an operand -/

/-- A base word plus an operand, read in IDLE: the opcode byte picks the row and the operand is ARG (R76, R77). -/
theorem decodeIdle_base_add_iff (op a : Byte) (i : Instr) :
    decodeIdle ((op ++ (0 : Byte) : CmdWord) + a.setWidth 16) = .ok i ↔
      (op = 0x01 ∧ i = .enable a) ∨ (op = 0x02 ∧ i = .disableMany a) ∨ (op = 0x03 ∧ a = 0x00 ∧ i = .disableAll) ∨
      (op = 0x04 ∧ i = .disable a) ∨ (op = 0x05 ∧ a = 0x00 ∧ i = .transmit) := by
  rw [base_add_operand, decodeIdle_ok_iff, opField_append, argField_append]

/-! ### One segment written, in all three views -/

/-- The write in the byte view: the segment's byte is or-ed with its mask or and-ed with the complement, and no other byte
changes (R49). -/
theorem memWrite_frame_getElem (k : Fin 64) (v : Bool) (s : State) (i : Fin 8) :
    (memWrite k v s).frame[i] =
      if i = byteIdx k then if v then s.frame[i] ||| bitMask k else s.frame[i] &&& ~~~bitMask k else s.frame[i] := by
  simp only [memWrite, Fin.getElem_fin, Vector.getElem_set]
  by_cases hi : i = byteIdx k
  · subst hi; simp
  · have hne : (byteIdx k).val ≠ i.val := fun h => hi (Fin.ext h.symm)
    simp [hi, hne]

/-- The write in the word view, for both values (R101, R108). -/
theorem memWrite_W (k : Fin 64) (v : Bool) (s : State) :
    (memWrite k v s).W = if v then s.W ||| 1#64 <<< (wpos k).val else s.W &&& ~~~(1#64 <<< (wpos k).val) := by
  cases v
  · exact memWrite_false_W k s
  · exact memWrite_true_W k s

/-- A segment write with a valid index changes that segment alone, in the byte, word and segment views. -/
theorem writesOneSegment_segWrite {seg : Byte} (h : seg.toNat < 64) (v : Bool) (s : State) :
    WritesOneSegment seg v s (segWrite seg v s) := by
  rw [segWrite_lt h]
  constructor
  case bytes =>
    intro i
    simp only [memWrite_frame_getElem, Fin.ext_iff]
    rfl
  case word => exact memWrite_W _ v s
  case segments =>
    intro u
    simp only [memWrite_F, Fin.ext_iff]

/-- Counting an element leaves what was written as it is. -/
theorem WritesOneSegment.countElement {seg : Byte} {v : Bool} {s t : State} (h : WritesOneSegment seg v s t) :
    WritesOneSegment seg v s (countElement t) where
  bytes := by simpa only [countElement_frame] using h.bytes
  word := by simpa only [countElement_W] using h.word
  segments := by simpa only [countElement_F] using h.segments

/-- A segment write with a valid index writes the frame only (R100). -/
theorem segWrite_eq_of_lt {seg : Byte} (h : seg.toNat < 64) (v : Bool) (s : State) :
    segWrite seg v s = { s with frame := (segWrite seg v s).frame } := by
  rw [segWrite_lt h]; rfl

/-- A segment write with an invalid index sets FAULT_RANGE only (R141). -/
theorem segWrite_eq_of_ge {seg : Byte} (h : 64 ≤ seg.toNat) (v : Bool) (s : State) :
    segWrite seg v s = { s with faultRange := true } := by
  rw [segWrite_ge h]; rfl

/-! ### ENABLE and DISABLE -/

/-- Settles O8: ENABLE is `segWrite` of `true`, which writes one segment below 64 and raises RangeFault from 64 on. -/
theorem enableSetsOneSegment : Obligations.EnableSetsOneSegment := by
  unfold Obligations.EnableSetsOneSegment
  intro seg s
  refine ⟨?word, fun h => ?write, fun h => ?fault⟩
  case word => exact (decodeIdle_base_add_iff 0x01 seg _).2 (.inl ⟨rfl, rfl⟩)
  case write => exact ⟨_, exec_enable seg s, writesOneSegment_segWrite h true s, segWrite_eq_of_lt h true s⟩
  case fault => rw [exec_enable, segWrite_eq_of_ge h]

/-- Settles O9: DISABLE is `segWrite` of `false`, which writes one segment below 64 and raises RangeFault from 64 on. -/
theorem disableClearsOneSegment : Obligations.DisableClearsOneSegment := by
  unfold Obligations.DisableClearsOneSegment
  intro seg s
  refine ⟨?word, fun h => ?write, fun h => ?fault⟩
  case word => exact (decodeIdle_base_add_iff 0x04 seg _).2 (.inr (.inr (.inr (.inl ⟨rfl, rfl⟩))))
  case write => exact ⟨_, exec_disable seg s, writesOneSegment_segWrite h false s, segWrite_eq_of_lt h false s⟩
  case fault => rw [exec_disable, segWrite_eq_of_ge h]

/-! ### DISABLE_MANY and its elements -/

/-- Settles O10: `loadList` on COUNT = 0 and on any other COUNT. -/
theorem disableManyHeaderBeginsAList : Obligations.DisableManyHeaderBeginsAList := by
  unfold Obligations.DisableManyHeaderBeginsAList
  intro count s
  refine ⟨?word, fun h => ?empty, fun h => ?begin⟩
  case word => exact (decodeIdle_base_add_iff 0x02 count _).2 (.inr (.inl ⟨rfl, rfl⟩))
  case empty => rw [exec_disableMany, loadList, if_pos h]
  case begin => rw [exec_disableMany, loadList, if_neg h]

/-- MODE after an element counted in LIST: IDLE exactly when it was the last one due (R104). -/
theorem countElement_mode_of_list {s : State} (hm : s.mode = .list) (h : 1 ≤ s.listRem.toNat) :
    (countElement s).mode = if s.listRem.toNat = 1 then .idle else .list := by
  simp only [countElement_of_list hm h, listRem_eq_one_iff]

/-- An element counted in LIST after an operation that left MODE and LISTREM alone counts from the state before it (R104:
steps 2 and 3 always run). -/
theorem countElement_counts {s u : State} (hm : s.mode = .list) (h : 1 ≤ s.listRem.toNat) (hum : u.mode = s.mode)
    (hur : u.listRem = s.listRem) :
    (countElement u).listRem.toNat = s.listRem.toNat - 1 ∧
    (countElement u).mode = if s.listRem.toNat = 1 then .idle else .list := by
  rw [countElement_listRem, listRemAfter_toNat, countElement_mode_of_list (hum.trans hm) (hur ▸ h), hur]
  exact ⟨rfl, rfl⟩

/-- Settles O11: whatever the word, the step is `countElement` after the write, after RangeFault, or after IllegalFault, and none
of the three touches MODE or LISTREM. -/
theorem listElementClearsAndCounts : Obligations.ListElementClearsAndCounts := by
  unfold Obligations.ListElementClearsAndCounts
  constructor
  · intro seg s hm h
    obtain ⟨hrem, hmode⟩ := countElement_counts hm h (segWrite_mode seg false s) (segWrite_listRem seg false s)
    refine ⟨?word, _, exec_seg seg s, hrem, hmode, fun hlt => ⟨?write, ?frame⟩, fun hge => ?fault⟩
    case word =>
      refine (decodeList_ok_iff _ _).2 ?_
      rw [show (0x0000 : CmdWord) = (0x00 : Byte) ++ (0x00 : Byte) from rfl, base_add_operand, opField_append,
        argField_append]
      exact ⟨rfl, rfl⟩
    case write => exact (writesOneSegment_segWrite hlt false s).countElement
    case frame => rw [segWrite_eq_of_lt hlt]; rfl
    case fault => rw [segWrite_eq_of_ge hge]; rfl
  · intro s w rest hm h hi hw
    have hop : opField w ≠ 0x00 := fun z => hw ((opField_eq_iff w 0 (by omega)).1 z)
    obtain ⟨e, he⟩ := (decodeList_error_iff w).2 hop
    have hstep := step_word_error hi (by simp [hm]) (by rw [hm]; exact he)
    rw [rejectWord_of_list (s := { s with inputs := rest }) hm] at hstep
    obtain ⟨hrem, hmode⟩ := countElement_counts (u := raise .illegal { s with inputs := rest }) hm h (by simp) (by simp)
    exact ⟨_, hstep, hrem, hmode, rfl⟩

/-! ### DISABLE_ALL -/

/-- The one word of DISABLE_ALL (R77). -/
theorem decodeIdle_disableAll_iff (w : CmdWord) : decodeIdle w = .ok .disableAll ↔ w = 0x0300 := by
  simp only [decodeIdle_ok_iff, reduceCtorEq, and_false, and_true, false_or, or_false]
  constructor
  · rintro ⟨hop, harg⟩
    exact word_ext hop harg
  · rintro rfl
    exact ⟨rfl, rfl⟩

/-- Settles O12: the word is 0x0300 alone among those with OP 0x03, and `clearFrame` clears the frame in all three views. -/
theorem disableAllClearsTheFrame : Obligations.DisableAllClearsTheFrame := by
  unfold Obligations.DisableAllClearsTheFrame
  refine ⟨decodeIdle_disableAll_iff, ?illegal, ?clears⟩
  case illegal =>
    intro w h3 hw
    have harg : w.toNat % 256 ≠ 0 := fun h0 => hw (BitVec.eq_of_toNat_eq (show w.toNat = 768 by omega))
    exact (decodeIdle_error_iff w).2 (.inr (.inr (.inl ⟨h3, harg⟩)))
  case clears =>
    exact fun s => ⟨_, exec_disableAll s, by simp, clearFrame_W s, clearFrame_F s, rfl⟩

end Sys2Proof.Machine
end

section
/-! SUPPORT. The proofs of the family 41_transmit.md: the order of the bits on the wire (R122) and the micro-steps as steps of
the machine (R121). -/

namespace Sys2Proof.Machine

/-! ### The order of the bits on the wire -/

/-- The segment of R122 is held by bit 63 - i of W (R43, R122). -/
theorem wpos_wireSegment (i : Fin 64) : (wpos (wireSegment i)).val = 63 - i.val := by
  simp only [wpos_val, wireSegment]; omega

/-- Bit 63 - i of W in the segment view (R122). -/
theorem W_getLsbD_wireSegment (s : State) (i : Fin 64) : s.W.getLsbD (63 - i.val) = s.F (wireSegment i) := by
  rw [← wpos_wireSegment, W_getLsbD_wpos]

/-- Bit 63 - i of W in the byte view: the bytes go out from B[7] to B[0], each with its bit 7 first (R12, R122). -/
theorem W_getLsbD_wireByte (s : State) {i : Nat} (h : i ≤ 63) :
    s.W.getLsbD (63 - i) = s.frame[7 - i / 8].getLsbD (7 - i % 8) := by
  have hpos : 63 - i = 8 * (7 - i / 8) + (7 - i % 8) := by omega
  obtain ⟨hbytes, -⟩ := frameViewsAgree s
  rw [hpos, hbytes _ _ (by omega) (by omega)]

/-- Settles O7: `microDrive_data` names the bit, and the byte and segment views of bit 63 - i are those of R122. -/
theorem bitOrderOnTheWire : Obligations.BitOrderOnTheWire := by
  unfold Obligations.BitOrderOnTheWire
  intro s i h
  exact ⟨microDrive_data _ h, W_getLsbD_wireByte s h, W_getLsbD_wireSegment s ⟨i, by omega⟩⟩

/-! ### The micro-steps -/

/-- Settles O31: the step is the micro-step after the schedule moves on, and TXSTEP names which one of R121 it is. -/
theorem microStepsInOrder : Obligations.MicroStepsInOrder := by
  unfold Obligations.MicroStepsInOrder
  intro s hn
  rw [step_microStep hn]
  refine ⟨fun h => ?first, fun i hi h => ?data, fun i hi h => ?rise, fun i hi h => ?fall, fun h => ?last⟩
  case first => exact microStep_first (s := s.takeInput) h
  case data => exact microStep_data (s := s.takeInput) hi h
  case rise => exact microStep_rise (s := s.takeInput) hi h
  case fall => exact microStep_fall (s := s.takeInput) hi h
  case last => exact microStep_last (s := s.takeInput) h

end Sys2Proof.Machine
end

section
/-! SUPPORT. The proofs of the family 60_exceptions.md: what a step with a RangeFault (R141) or an IllegalFault (R142) does,
as whole next states. -/

namespace Sys2Proof.Machine

/-- A faulting element in LIST: the flag of its fault is set and it counts as one element (R141, R142). -/
theorem countElement_raise_of_list (f : BlockFault) {s : State} (hm : s.mode = .list) (h : 1 ≤ s.listRem.toNat) :
    countElement (raise f s) =
      { raise f s with listRem := s.listRem - 1, mode := if s.listRem = 1 then .idle else .list } := by
  rw [countElement_of_list ((raise_mode f s).trans hm) (by rwa [raise_listRem]), raise_listRem]

/-! ### RangeFault -/

/-- Settles O19: from 64 on a segment write is `raise .range`, in a list element followed by its count. -/
theorem outOfRangeSegmentIsRejected : Obligations.OutOfRangeSegmentIsRejected := by
  unfold Obligations.OutOfRangeSegmentIsRejected
  intro seg s hge
  refine ⟨?enable, ?disable, fun hm h => ?element⟩
  case enable => rw [exec_enable, segWrite_eq_of_ge hge]
  case disable => rw [exec_disable, segWrite_eq_of_ge hge]
  case element => rw [exec_seg, segWrite_ge hge, countElement_raise_of_list .range hm h]; rfl

/-! ### IllegalFault -/

/-- A word is illegal in LIST iff its upper byte, in numbers, is not 0 (R79). -/
theorem decodeList_error_iff_div (w : CmdWord) : (∃ e, decodeList w = .error e) ↔ w.toNat / 256 ≠ 0 :=
  (decodeList_error_iff w).trans (not_congr (opField_eq_iff w 0 (by omega)))

/-- Settles O20: the words listed are those of `decodeIdle_error_iff` and `decodeList_error_iff_div`, so the step rejects
them: `raise .illegal` alone in IDLE, followed by the count of one element in LIST. -/
theorem illegalWordIsRejected : Obligations.IllegalWordIsRejected := by
  unfold Obligations.IllegalWordIsRejected
  intro s w rest hi
  refine ⟨fun hm hw => ?idle, fun hm h hw => ?list⟩
  case idle =>
    obtain ⟨e, he⟩ := (decodeIdle_error_iff w).2 hw
    rw [step_word_error hi (by simp [hm]) (by rwa [hm]), rejectWord_of_not_list (by simp [hm])]
    rfl
  case list =>
    obtain ⟨e, he⟩ := (decodeList_error_iff_div w).2 hw
    rw [step_word_error hi (by simp [hm]) (by rwa [hm]), rejectWord_of_list (s := { s with inputs := rest }) hm,
      countElement_raise_of_list (s := { s with inputs := rest }) .illegal hm h]
    rfl

end Sys2Proof.Machine
end

section
/-! SUPPORT. The proofs of the family 'other' about encoding: decode and encode are inverse to each other, row by row of the
opcode map (R76, R77). -/

namespace Sys2Proof

/-- Each row's word decodes to its instruction in the MODE of the row (R77). -/
theorem decode_readMode_encode (i : Instr) : decode i.readMode (encode i) = .ok i := by
  cases i with
  | enable s => exact (decodeIdle_ok_iff _ _).2 (by simp [encode])
  | disableMany n => exact (decodeIdle_ok_iff _ _).2 (by simp [encode])
  | seg s => exact (decodeList_ok_iff _ _).2 (by simp [encode])
  | disableAll => decide
  | disable s => exact (decodeIdle_ok_iff _ _).2 (by simp [encode])
  | transmit => decide

theorem wfIn_iff {i : Instr} {m : Mode} : i.wfIn m = true ↔ i.readMode = m := by
  simp [Instr.wfIn]

/-- The encoder's word is the one word with its opcode byte and its operand byte (R70, R77). -/
theorem encode_eq_of_fields {op arg : Byte} {w : CmdWord} (ho : opField w = op) (ha : argField w = arg) :
    (op ++ arg : CmdWord) = w := by
  rw [← ho, ← ha, fields_append]

/-- A word that decodes in IDLE is the encoding of an instruction of an IDLE row (R76, R77). -/
theorem encode_of_decodeIdle {w : CmdWord} {i : Instr} (h : decodeIdle w = .ok i) :
    encode i = w ∧ i.readMode = .idle := by
  rcases (decodeIdle_ok_iff w i).1 h with ⟨ho, rfl⟩ | ⟨ho, rfl⟩ | ⟨ho, ha, rfl⟩ | ⟨ho, rfl⟩ | ⟨ho, ha, rfl⟩
  · exact ⟨encode_eq_of_fields ho rfl, rfl⟩
  · exact ⟨encode_eq_of_fields ho rfl, rfl⟩
  · exact ⟨encode_eq_of_fields ho ha, rfl⟩
  · exact ⟨encode_eq_of_fields ho rfl, rfl⟩
  · exact ⟨encode_eq_of_fields ho ha, rfl⟩

/-- A word that decodes in LIST is the encoding of a `.SEG` (R76, R77). -/
theorem encode_of_decodeList {w : CmdWord} {i : Instr} (h : decodeList w = .ok i) :
    encode i = w ∧ i.readMode = .list := by
  obtain ⟨ho, rfl⟩ := (decodeList_ok_iff w i).1 h
  exact ⟨encode_eq_of_fields ho rfl, rfl⟩

/-- A word that decodes is the encoding of what it decodes to, and is read in the MODE of that row. In SHIFT nothing decodes. -/
theorem encode_of_decode {m : Mode} {w : CmdWord} {i : Instr} (h : decode m w = .ok i) : encode i = w ∧ i.readMode = m := by
  cases m with
  | idle => exact encode_of_decodeIdle h
  | list => exact encode_of_decodeList h
  | shift => cases h

/-- Settles O3: a MODE in which the instruction can be read is the MODE of its row. -/
theorem decodeOfEncodeIsTheInstruction : Obligations.DecodeOfEncodeIsTheInstruction := by
  unfold Obligations.DecodeOfEncodeIsTheInstruction
  intro i m h
  obtain rfl := wfIn_iff.1 h
  exact decode_readMode_encode i

/-- Settles O4, by `encode_of_decode`. -/
theorem decodedWordIsTheEncoding : Obligations.DecodedWordIsTheEncoding := by
  unfold Obligations.DecodedWordIsTheEncoding
  intro m w i h
  rw [wfIn_iff]
  exact encode_of_decode h

/-- Settles O1: each word is a literal, and the decoder runs on it. -/
theorem wordsWrittenOutDecode : Obligations.WordsWrittenOutDecode := by
  unfold Obligations.WordsWrittenOutDecode
  decide

end Sys2Proof
end

section
/-! SUPPORT. The proofs of the family 'other' about the pins and the sequencer's invariants: what one step does to the pins, the
chain and the latch (R23, R27, R28), and that it keeps I-a to I-f (R20) and the chain invariant (R125, log 15). -/

namespace Sys2Proof.Machine

/-! ### What one step does to the pins -/

/-- The three pins, the chain and the latch are the same in both states. -/
structure PinsKept (s t : State) : Prop where
  sdata  : t.sdata = s.sdata
  sclk   : t.sclk = s.sclk
  slatch : t.slatch = s.slatch
  sr     : t.sr = s.sr
  out    : t.out = s.out

/-- What one step does to the pins and to what hangs on them, from state `s` to state `t`: one case for each way in which the
moves of R191 meet the transmitter. -/
inductive PinStep (s t : State) : Prop where
  /-- Outside SHIFT the host's and the supply's moves touch no pin; a transmit that is begun stands at micro-step 0. -/
  | outside (hm : s.mode ≠ .shift) (hs : s.nextMove ≠ .microStep) (hr : s.nextMove ≠ .reset) (kept : PinsKept s t)
      (enters : t.mode = .shift → t.txStep = 0 ∧ s.nextMove = .accept (encode .transmit))
  /-- In SHIFT the supply sets HVEN. -/
  | supply (level : Bool) (rest : List Input) (hm : s.mode = .shift) (hn : s.nextMove = .hven level)
      (ht : t = { s with hven := level, inputs := rest })
  /-- In SHIFT the transmitter makes the micro-step named by TXSTEP. -/
  | microStep (hm : s.mode = .shift) (hn : s.nextMove = .microStep) (ht : microStep s.takeInput = .next t)
  /-- RST. -/
  | reset (rest : List Input) (hn : s.nextMove = .reset) (ht : t = applyReset { s with inputs := rest })

/-- No instruction drives a pin (R100, R120). -/
theorem exec_pinsKept {i : Instr} {s t : State} (h : exec i s = .next t) : PinsKept s t := by
  obtain ⟨sdata, sclk, slatch, sr, out, -⟩ := exec_frame h
  exact ⟨sdata, sclk, slatch, sr, out⟩

/-- SHIFT is entered by the word of TRANSMIT alone, at micro-step 0 (R17, R120). -/
theorem step_enters_shift {s t : State} (h : step s = .next t) (hm : s.mode ≠ .shift) (ht : t.mode = .shift) :
    t.txStep = 0 ∧ s.nextMove = .accept (encode .transmit) := by
  cases step_control h with
  | header _ _ _ _ _ mode _ _ => rw [mode] at ht; split at ht <;> cases ht
  | transmit w hn _ hd _ _ txStep =>
    obtain ⟨hw, -⟩ := encode_of_decodeIdle hd
    exact ⟨txStep, hw ▸ hn⟩
  | other _ _ _ _ _ mode _ _ => simp [mode] at ht
  | element _ _ _ mode _ _ => rw [mode] at ht; split at ht <;> cases ht
  | lastMicroStep _ hm' _ _ _ _ => exact absurd hm' hm
  | microStep _ hm' _ _ _ _ => exact absurd hm' hm
  | reset _ mode _ _ => simp [mode] at ht
  | keep _ _ _ mode _ _ => exact absurd (mode ▸ ht) hm

/-- Every step that answers a next state is one of the cases of `PinStep`. -/
theorem step_pin {s t : State} (h : step s = .next t) : PinStep s t := by
  have enters := step_enters_shift h
  rcases step_cases h with ⟨w, rest, i, -, hm, hn, -, he⟩ | ⟨w, rest, e, -, hm, hn, -, rfl⟩ | ⟨hm, hn, h⟩ |
    ⟨rest, -, hn, rfl⟩ | ⟨l, rest, -, hn, rfl⟩ | ⟨rest, -, hm, hn, rfl⟩
  · have kept := exec_pinsKept he
    exact .outside hm (by simp [hn]) (by simp [hn]) ⟨kept.sdata, kept.sclk, kept.slatch, kept.sr, kept.out⟩ (enters hm)
  · exact .outside hm (by simp [hn]) (by simp [hn]) (by constructor <;> simp) (enters hm)
  · exact .microStep hm hn h
  · exact .reset rest hn rfl
  · by_cases hm : s.mode = .shift
    · exact .supply l rest hm hn rfl
    · exact .outside hm (by simp [hn]) (by simp [hn]) ⟨rfl, rfl, rfl, rfl, rfl⟩ (enters hm)
  · exact .outside hm (by simp [hn]) (by simp [hn]) ⟨rfl, rfl, rfl, rfl, rfl⟩ (enters hm)

/-! ### The obligations about the pins -/

/-- Settles O36: of the cases of `PinStep`, only a micro-step and RST drive a pin. -/
theorem onlyTransmitAndResetDrivePins : Obligations.OnlyTransmitAndResetDrivePins := by
  unfold Obligations.OnlyTransmitAndResetDrivePins
  intro s t h hs hr
  cases step_pin h with
  | outside _ _ _ kept _ => exact ⟨kept.sdata, kept.sclk, kept.slatch, kept.sr, kept.out⟩
  | supply l rest _ _ ht => subst ht; exact ⟨rfl, rfl, rfl, rfl, rfl⟩
  | microStep _ hn _ => exact absurd hn hs
  | reset _ hn _ => exact absurd hn hr

/-- The chain over one step: it shifts exactly at a rising SCLK (R27). -/
theorem step_sr {s t : State} (h : step s = .next t) :
    t.sr = if s.sclk = false ∧ t.sclk = true then shiftIn s.sr s.sdata else s.sr := by
  cases step_pin h with
  | outside _ _ _ kept _ => simp [kept.sclk, kept.sr]
  | supply l rest _ _ ht => subst ht; simp
  | microStep _ _ ht =>
    obtain ⟨-, d, -, rfl⟩ := microStep_next ht
    by_cases hp : d.pin = .sclk <;> simp [hp, and_comm]
  | reset _ _ ht => subst ht; simp

/-- The latch over one step: it loads exactly at a rising SLATCH (R28). -/
theorem step_out {s t : State} (h : step s = .next t) :
    t.out = if s.slatch = false ∧ t.slatch = true then s.sr else s.out := by
  cases step_pin h with
  | outside _ _ _ kept _ => simp [kept.slatch, kept.out]
  | supply l rest _ _ ht => subst ht; simp
  | microStep _ _ ht =>
    obtain ⟨-, d, -, rfl⟩ := microStep_next ht
    by_cases hp : d.pin = .slatch <;> simp [hp, and_comm]
  | reset _ _ ht => subst ht; simp

/-- Settles O37: `step_sr`, with the shift read stage by stage. -/
theorem chainShiftsExactlyOnClockRise : Obligations.ChainShiftsExactlyOnClockRise := by
  unfold Obligations.ChainShiftsExactlyOnClockRise
  intro s t h
  rw [step_sr h]
  refine ⟨fun hrise => ?_, fun hrise => if_neg hrise⟩
  rw [if_pos hrise]
  refine ⟨by rw [shiftIn_getLsbD _ _ (by omega), if_pos rfl], fun k hk => ?_⟩
  rw [shiftIn_getLsbD _ _ (by omega), if_neg (by omega), Nat.add_sub_cancel]

/-- Settles O38, by `step_out`. -/
theorem latchLoadsExactlyOnLatchRise : Obligations.LatchLoadsExactlyOnLatchRise := by
  unfold Obligations.LatchLoadsExactlyOnLatchRise
  intro s t h
  rw [step_out h]
  exact ⟨fun hrise => if_pos hrise, fun hrise => if_neg hrise⟩

/-- Settles O40: in SHIFT, HVEN and a micro-step do not write the frame. -/
theorem frameIsStableDuringShift : Obligations.FrameIsStableDuringShift := by
  unfold Obligations.FrameIsStableDuringShift
  intro s t h hm hr
  cases step_pin h with
  | outside hm' _ _ _ _ => exact absurd hm hm'
  | supply l rest _ _ ht => subst ht; rfl
  | microStep _ _ ht =>
    obtain ⟨hframe, -⟩ := microStep_frame ht
    exact hframe
  | reset _ hn _ => exact absurd hn hr

/-! ### The sequencer invariant -/

/-- The TXSTEP values 3, 6, ..., 192 of I-f, by remainder. -/
theorem clockHigh_iff {n : Nat} (h : n ≤ 193) : (∃ i, i ≤ 63 ∧ n = 1 + 3 * i + 2) ↔ n ≠ 0 ∧ n % 3 = 0 := by
  constructor
  · rintro ⟨i, -, rfl⟩
    omega
  · rintro ⟨hpos, hmod⟩
    exact ⟨n / 3 - 1, by omega, by omega⟩

/-- I-f: in SHIFT the clock is low but for a TXSTEP that is a positive multiple of 3. -/
theorem State.Inv.sclk_iff {s : State} (hs : s.Inv) (hm : s.mode = .shift) :
    s.sclk = true ↔ s.txStep.toNat ≠ 0 ∧ s.txStep.toNat % 3 = 0 :=
  (hs.sclk_high hm).trans (clockHigh_iff hs.txStep_le)

theorem State.Inv.sclk_eq_false {s : State} (hs : s.Inv) (hm : s.mode = .shift)
    (h : ¬(s.txStep.toNat ≠ 0 ∧ s.txStep.toNat % 3 = 0)) : s.sclk = false :=
  Bool.eq_false_iff.2 fun c => h ((hs.sclk_iff hm).1 c)

/-- The pins that fit a state of the control triple: I-c, I-d and I-f of R20. -/
structure PinsFit (s : State) : Prop where
  sclk_low   : s.mode ≠ .shift → s.sclk = false
  slatch_low : s.mode = .shift → 1 ≤ s.txStep.toNat → s.slatch = false
  sclk_iff   : s.mode = .shift → (s.sclk = true ↔ s.txStep.toNat ≠ 0 ∧ s.txStep.toNat % 3 = 0)

/-- Outside SHIFT only the clock matters. -/
theorem pinsFit_outside {s : State} (hm : s.mode ≠ .shift) (hc : s.sclk = false) : PinsFit s :=
  ⟨fun _ => hc, fun h => absurd h hm, fun h => absurd h hm⟩

theorem ofNat_toNat_of_le {n : Nat} (h : n ≤ 255) : (BitVec.ofNat 8 n).toNat = n := by
  rw [BitVec.toNat_ofNat]; omega

/-- A micro-step keeps the pins fitting, by its five kinds (R121). -/
theorem microStep_pinsFit {s t : State} (hs : s.Inv) (hm : s.mode = .shift) (h : microStep s = .next t) : PinsFit t := by
  have hlow := hs.sclk_eq_false hm
  have hlatch := hs.slatch_low hm
  rcases txStep_kinds hs.txStep_le with hx | ⟨i, hi, hx⟩ | ⟨i, hi, hx⟩ | ⟨i, hi, hx⟩ | hx
  · rw [microStep_first hx] at h
    obtain rfl := Host.Outcome.next.inj h
    exact ⟨fun c => absurd hm c, fun _ _ => rfl, fun _ => by simp [hlow (by omega)]⟩
  · rw [microStep_data hi hx] at h
    obtain rfl := Host.Outcome.next.inj h
    refine ⟨fun c => absurd hm c, fun _ _ => hlatch (by omega), fun _ => ?_⟩
    rw [ofNat_toNat_of_le (by omega), hlow (by omega), Bool.false_eq_true, false_iff]
    omega
  · rw [microStep_rise hi hx] at h
    obtain rfl := Host.Outcome.next.inj h
    refine ⟨fun c => absurd hm c, fun _ _ => hlatch (by omega), fun _ => ?_⟩
    rw [ofNat_toNat_of_le (by omega), eq_self, true_iff]
    omega
  · rw [microStep_fall hi hx] at h
    obtain rfl := Host.Outcome.next.inj h
    refine ⟨fun c => absurd hm c, fun _ _ => hlatch (by omega), fun _ => ?_⟩
    rw [ofNat_toNat_of_le (by omega), Bool.false_eq_true, false_iff]
    omega
  · rw [microStep_last hx] at h
    obtain rfl := Host.Outcome.next.inj h
    exact pinsFit_outside nofun (hlow (by omega))

/-- The schedule plays no part in the invariant. -/
theorem State.Inv.takeInput {s : State} (hs : s.Inv) : s.takeInput.Inv :=
  ⟨hs.list_iff, hs.txStep_zero, hs.sclk_low, hs.slatch_low, hs.txStep_le, hs.sclk_high⟩

/-- Every step from a state of the invariant leaves the pins fitting. -/
theorem step_pinsFit {s t : State} (hs : s.Inv) (h : step s = .next t) : PinsFit t := by
  cases step_pin h with
  | outside hm _ _ kept enters =>
    have hc : t.sclk = false := kept.sclk.trans (hs.sclk_low hm)
    refine ⟨fun _ => hc, fun ht hx => ?_, fun ht => ?_⟩
    · obtain ⟨hzero, -⟩ := enters ht
      simp [hzero] at hx
    · obtain ⟨hzero, -⟩ := enters ht
      simp [hc, hzero]
  | supply l rest hm _ ht =>
    subst ht
    exact ⟨fun c => absurd hm c, fun _ => hs.slatch_low hm, fun _ => hs.sclk_iff hm⟩
  | microStep hm _ ht => exact microStep_pinsFit hs.takeInput hm ht
  | reset _ _ ht => subst ht; exact pinsFit_outside nofun rfl

/-- I-a to I-f are kept by every step: the control triple's part and the pins' part. -/
theorem State.Inv.step {s t : State} (hs : s.Inv) (h : step s = .next t) : t.Inv := by
  obtain ⟨hle, hzero⟩ := step_txStep_bounds hs h
  have hpins := step_pinsFit hs h
  exact ⟨step_list_iff hs h, hzero, hpins.sclk_low, hpins.slatch_low, hle,
    fun hm => (hpins.sclk_iff hm).trans (clockHigh_iff hle).symm⟩

/-- Settles O42. -/
theorem stepKeepsSequencerInvariant : Obligations.StepKeepsSequencerInvariant := by
  unfold Obligations.StepKeepsSequencerInvariant
  exact fun s t hs h => hs.step h

/-- Settles O39: SCLK rises in a micro-step past the first, where I-d has SLATCH 0, and the drive is of SCLK. -/
theorem clockRisesOnlyWithLatchLow : Obligations.ClockRisesOnlyWithLatchLow := by
  unfold Obligations.ClockRisesOnlyWithLatchLow
  intro s t hs h hlow hhigh
  cases step_pin h with
  | outside _ _ _ kept _ => simp [kept.sclk, hlow] at hhigh
  | supply l rest _ _ ht => subst ht; simp [hlow] at hhigh
  | microStep hm _ ht =>
    obtain ⟨-, d, hd, rfl⟩ := microStep_next ht
    have hpin : d.pin = .sclk := by
      by_contra hp
      simp [hp, hlow] at hhigh
    have hx : 1 ≤ s.txStep.toNat := by
      by_contra hx
      have hzero : s.txStep.toNat = 0 := by omega
      rw [takeInput_txStep, hzero, microDrive_first] at hd
      obtain rfl := Option.some.inj hd
      simp at hpin
    have hlatch := hs.slatch_low hm hx
    exact ⟨hlatch, by simp [hpin, hlatch]⟩
  | reset _ _ ht => subst ht; simp at hhigh

/-! ### The chain invariant -/

/-- The chain invariant, with the number of clock edges made written out. -/
theorem chainInv_of_edges {s : State} {k : Nat} (hk : s.txStep.toNat / 3 = k)
    (stages : ∀ j, j < k → s.sr.getLsbD j = s.W.getLsbD (64 - k + j))
    (ready : s.txStep.toNat % 3 = 2 → s.sdata = s.W.getLsbD (63 - k)) : s.ChainInv where
  low_stages := by rw [State.edges, hk]; exact fun _ => stages
  data_ready := by rw [State.edges, hk]; exact fun _ => ready

/-- Outside SHIFT the chain may hold anything. -/
theorem chainInv_outside {s : State} (hm : s.mode ≠ .shift) : s.ChainInv :=
  ⟨fun h => absurd h hm, fun h => absurd h hm⟩

/-- At the first micro-step no bit has been sent. -/
theorem chainInv_of_start {s : State} (hx : s.txStep = 0) : s.ChainInv :=
  chainInv_of_edges (k := 0) (by simp [hx]) nofun (by simp [hx])

/-- The clock edge of bit `i` moves the bit that SDATA holds into stage 0 and the `i` bits before it one stage up, so that the
low `i + 1` stages hold the top `i + 1` bits of W in order (R27, R125). -/
theorem shiftIn_low_stages {w sr : Word64} {i : Nat} (hi : i ≤ 63)
    (stages : ∀ j, j < i → sr.getLsbD j = w.getLsbD (64 - i + j)) (j : Nat) (hj : j < i + 1) :
    (shiftIn sr (w.getLsbD (63 - i))).getLsbD j = w.getLsbD (64 - (i + 1) + j) := by
  rw [shiftIn_getLsbD _ _ (by omega)]
  by_cases hz : j = 0
  · rw [if_pos hz]
    congr 1; omega
  · rw [if_neg hz, stages _ (by omega)]
    congr 1; omega

/-- A micro-step keeps the chain invariant, by its five kinds (R121). -/
theorem microStep_chainInv {s t : State} (hs : s.Inv) (hc : s.ChainInv) (hm : s.mode = .shift) (h : microStep s = .next t) :
    t.ChainInv := by
  have hstages := hc.low_stages hm
  have hready := hc.data_ready hm
  rcases txStep_kinds hs.txStep_le with hx | ⟨i, hi, hx⟩ | ⟨i, hi, hx⟩ | ⟨i, hi, hx⟩ | hx
  · rw [microStep_first hx] at h
    obtain rfl := Host.Outcome.next.inj h
    exact chainInv_of_edges (k := 0) (by simp) nofun (by simp)
  · rw [microStep_data hi hx] at h
    obtain rfl := Host.Outcome.next.inj h
    have hk : s.edges = i := by unfold State.edges; omega
    have htx := ofNat_toNat_of_le (show 2 + 3 * i ≤ 255 by omega)
    exact chainInv_of_edges (by rw [htx]; omega) (hk ▸ hstages) (fun _ => rfl)
  · rw [microStep_rise hi hx] at h
    obtain rfl := Host.Outcome.next.inj h
    have hk : s.edges = i := by unfold State.edges; omega
    have htx := ofNat_toNat_of_le (show 3 + 3 * i ≤ 255 by omega)
    have hsr : (if s.sclk = false then shiftIn s.sr s.sdata else s.sr) = shiftIn s.sr (s.W.getLsbD (63 - i)) := by
      rw [if_pos (hs.sclk_eq_false hm (by omega)), hready (by omega), hk]
    refine chainInv_of_edges (k := i + 1) (by rw [htx]; omega) ?_ (by rw [htx]; omega)
    rw [hsr]
    exact shiftIn_low_stages hi (hk ▸ hstages)
  · rw [microStep_fall hi hx] at h
    obtain rfl := Host.Outcome.next.inj h
    have hk : s.edges = i + 1 := by unfold State.edges; omega
    have htx := ofNat_toNat_of_le (show 4 + 3 * i ≤ 255 by omega)
    exact chainInv_of_edges (k := i + 1) (by rw [htx]; omega) (hk ▸ hstages) (by rw [htx]; omega)
  · rw [microStep_last hx] at h
    obtain rfl := Host.Outcome.next.inj h
    exact chainInv_outside nofun

/-- The schedule plays no part in the chain invariant. -/
theorem State.ChainInv.takeInput {s : State} (hc : s.ChainInv) : s.takeInput.ChainInv :=
  ⟨hc.low_stages, hc.data_ready⟩

/-- Settles O43, by the cases of `PinStep`. -/
theorem stepKeepsChainInvariant : Obligations.StepKeepsChainInvariant := by
  unfold Obligations.StepKeepsChainInvariant
  intro s t hs hc h
  cases step_pin h with
  | outside _ _ _ _ enters =>
    by_cases hm : t.mode = .shift
    · obtain ⟨hzero, -⟩ := enters hm
      exact chainInv_of_start hzero
    · exact chainInv_outside hm
  | supply l rest _ _ ht => subst ht; exact ⟨hc.low_stages, hc.data_ready⟩
  | microStep hm _ ht => exact microStep_chainInv hs.takeInput hc.takeInput hm ht
  | reset _ _ ht => subst ht; exact chainInv_outside nofun

/-- At micro-step 193 all 64 stages hold the frame word (R125). -/
theorem State.ChainInv.sr_eq_W {s : State} (hc : s.ChainInv) (hm : s.mode = .shift) (hx : s.txStep.toNat = 193) :
    s.sr = s.W := by
  have hk : s.edges = 64 := by unfold State.edges; omega
  apply BitVec.eq_of_getLsbD_eq
  intro j hj
  simpa [hk] using hc.low_stages hm j (by omega)

/-- SLATCH rises in the last micro-step of a transmit and at no other step: RST drives it to 0, and of the pin events of R121
only the last drives it to 1. -/
theorem step_latch_rise {s t : State} (h : step s = .next t) (hlow : s.slatch = false) (hhigh : t.slatch = true) :
    s.mode = .shift ∧ s.nextMove = .microStep ∧ s.txStep.toNat = 193 ∧ microStep s.takeInput = .next t := by
  cases step_pin h with
  | outside _ _ _ kept _ => simp [kept.slatch, hlow] at hhigh
  | supply l rest _ _ ht => subst ht; simp [hlow] at hhigh
  | reset _ _ ht => subst ht; simp at hhigh
  | microStep hm hn ht =>
    refine ⟨hm, hn, ?_, ht⟩
    obtain ⟨hle, d, hd, rfl⟩ := microStep_next ht
    have hdrive : d = ⟨.slatch, true⟩ := by
      obtain ⟨pin, level⟩ := d
      cases pin <;> simp_all
    subst hdrive
    rcases txStep_kinds hle with hx | ⟨i, hi, hx⟩ | ⟨i, hi, hx⟩ | ⟨i, hi, hx⟩ | hx <;> rw [hx] at hd
    · simp [microDrive_first] at hd
    · simp [microDrive_data _ hi] at hd
    · simp [microDrive_rise _ hi] at hd
    · simp [microDrive_fall _ hi] at hd
    · exact hx

/-- Settles O44: OUT changes only at a rising SLATCH, the last micro-step, where the chain holds the whole frame word. -/
theorem onlyWholeFramesReachTheLatch : Obligations.OnlyWholeFramesReachTheLatch := by
  unfold Obligations.OnlyWholeFramesReachTheLatch
  intro s t hs hc h hne
  have hout := step_out h
  by_cases hrise : s.slatch = false ∧ t.slatch = true
  · obtain ⟨hlow, hhigh⟩ := hrise
    obtain ⟨hm, -, hx, hmicro⟩ := step_latch_rise h hlow hhigh
    obtain ⟨hlast, -⟩ := microStep_control hmicro
    obtain ⟨hmode, -⟩ := hlast hx
    obtain ⟨hframe, -⟩ := microStep_frame hmicro
    rw [if_pos ⟨hlow, hhigh⟩, hc.sr_eq_W hm hx] at hout
    exact ⟨hm, hx, hmode, hhigh, hout, W_congr hframe⟩
  · rw [if_neg hrise] at hout
    exact absurd hout hne

/-- Settles O41: at power-on MODE is IDLE, LISTREM and TXSTEP are 0 and the clock is low. -/
theorem invariantsHoldAtPowerOn : Obligations.InvariantsHoldAtPowerOn := by
  unfold Obligations.InvariantsHoldAtPowerOn
  intro sr0 out0 inputs
  constructor
  · exact ⟨by simp [State.powerOn], fun _ => rfl, fun _ => rfl, nofun, Nat.zero_le _, nofun⟩
  · exact chainInv_outside nofun

end Sys2Proof.Machine
end

section
/-! SUPPORT. The proofs of the family 'other' about the instructions: what each leaves alone (R14, R100), the laws of two segment
writes (R51, R109), DISABLE_MANY as repeated DISABLE (R105), and a host with a valid topology (R8). -/

namespace Sys2Proof.Machine

/-! ### The write decoder, the word of TRANSMIT, the frame of each instruction -/

/-- Settles O5: wpos is an involution, and no segment's byte is in its own group of eight places. -/
theorem writeDecoderIsABijection : Obligations.WriteDecoderIsABijection := by
  unfold Obligations.WriteDecoderIsABijection
  have involutive : Function.Involutive wpos := wpos_wpos
  refine ⟨fun k => ?value, involutive.bijective, involutive, fun k hk => ?fixed, fun i => ?order⟩
  case value => rw [wpos_val]; omega
  case fixed =>
    have := congrArg Fin.val hk
    rw [wpos_val] at this
    omega
  case order =>
    apply Fin.ext
    simp only [wireOrder, wpos_wireSegment]
    omega

/-- The one word of TRANSMIT (R77). -/
theorem decodeIdle_transmit_iff (w : CmdWord) : decodeIdle w = .ok .transmit ↔ w = 0x0500 := by
  constructor
  · intro h
    obtain ⟨hw, -⟩ := encode_of_decodeIdle h
    exact hw.symm
  · rintro rfl
    exact decode_readMode_encode .transmit

/-- Settles O13. -/
theorem transmitAcceptEntersShift : Obligations.TransmitAcceptEntersShift := by
  unfold Obligations.TransmitAcceptEntersShift
  exact ⟨decodeIdle_transmit_iff, exec_transmit⟩

/-- TXSTEP is written by TRANSMIT alone (R19). -/
theorem exec_txStep {i : Instr} {s t : State} (hi : i ≠ .transmit) (h : exec i s = .next t) : t.txStep = s.txStep := by
  cases i <;> obtain rfl := Host.Outcome.next.inj h
  case transmit => exact absurd rfl hi
  all_goals simp

/-- Settles O14: `exec_frame` with `exec_txStep`. -/
theorem frameWritesLeavePinsAndChainAlone : Obligations.FrameWritesLeavePinsAndChainAlone := by
  unfold Obligations.FrameWritesLeavePinsAndChainAlone
  exact fun i s t hi h => ⟨exec_txStep hi h, exec_frame h⟩

/-- A segment write with an invalid index stores nothing (R48). -/
theorem segWrite_F_of_ge {g : Byte} (h : 64 ≤ g.toNat) (v : Bool) (s : State) (u : Fin 64) :
    (segWrite g v s).F u = s.F u := by
  rw [segWrite_ge h, raise_F]

/-- Settles O15, by the instructions it names. -/
theorem storingNothingLeavesEverySegment : Obligations.StoringNothingLeavesEverySegment := by
  unfold Obligations.StoringNothingLeavesEverySegment
  rintro i s t h (⟨n, rfl⟩ | rfl | ⟨g, hg, rfl | rfl | rfl⟩) u <;> obtain rfl := Host.Outcome.next.inj h
  · exact loadList_F n s u
  · rfl
  · exact segWrite_F_of_ge hg true s u
  · exact segWrite_F_of_ge hg false s u
  · rw [countElement_F]
    exact segWrite_F_of_ge hg false s u

/-! ### The laws of two segment writes -/

theorem exec_segInstr (v : Bool) (g : Byte) (s : State) : exec (segInstr v g) s = .next (segWrite g v s) := by
  cases v <;> rfl

theorem memWrite_comm {j k : Fin 64} (h : j ≠ k) (v w : Bool) (s : State) :
    memWrite k w (memWrite j v s) = memWrite j v (memWrite k w s) := by
  have hframe : (memWrite k w (memWrite j v s)).frame = (memWrite j v (memWrite k w s)).frame := by
    apply frame_eq_of_F
    intro u
    simp only [memWrite_F]
    by_cases hk : u = k
    · have hj : u ≠ j := fun c => h (c.symm.trans hk)
      rw [if_pos hk, if_neg hj, if_pos hk]
    · rw [if_neg hk, if_neg hk]
  exact congrArg (fun f => { s with frame := f }) hframe

theorem memWrite_memWrite (k : Fin 64) (v w : Bool) (s : State) : memWrite k w (memWrite k v s) = memWrite k w s := by
  have hframe : (memWrite k w (memWrite k v s)).frame = (memWrite k w s).frame := by
    apply frame_eq_of_F
    intro u
    simp only [memWrite_F]
    split <;> rfl
  exact congrArg (fun f => { s with frame := f }) hframe

/-- Law (e) of 40_frame_write.md section 7, operands of 64 and above included: a faulting write touches FAULT_RANGE only. -/
theorem segWrite_comm {a b : Byte} (h : a ≠ b) (v w : Bool) (s : State) :
    segWrite b w (segWrite a v s) = segWrite a v (segWrite b w s) := by
  rcases Nat.lt_or_ge a.toNat 64 with ha | ha <;> rcases Nat.lt_or_ge b.toNat 64 with hb | hb
  · have hne : (⟨a.toNat, ha⟩ : Fin 64) ≠ ⟨b.toNat, hb⟩ := fun c => h (BitVec.eq_of_toNat_eq (Fin.mk.inj c))
    simp only [segWrite_lt ha, segWrite_lt hb, memWrite_comm hne]
  · simp only [segWrite_lt ha, segWrite_ge hb]; rfl
  · simp only [segWrite_ge ha, segWrite_lt hb]; rfl
  · simp only [segWrite_ge ha, segWrite_ge hb]

/-- Law (d) of 40_frame_write.md section 7. -/
theorem segWrite_segWrite (a : Byte) (v w : Bool) (s : State) : segWrite a w (segWrite a v s) = segWrite a w s := by
  rcases Nat.lt_or_ge a.toNat 64 with ha | ha
  · simp only [segWrite_lt ha, memWrite_memWrite]
  · simp only [segWrite_ge ha]; rfl

/-- Settles O16. -/
theorem writesToDifferentSegmentsCommute : Obligations.WritesToDifferentSegmentsCommute := by
  unfold Obligations.WritesToDifferentSegmentsCommute
  intro v w a b s h
  refine ⟨_, _, _, exec_segInstr v a s, exec_segInstr w b _, exec_segInstr w b s, ?_⟩
  rw [exec_segInstr, segWrite_comm h]

/-- Settles O17. -/
theorem lastWriteToASegmentWins : Obligations.LastWriteToASegmentWins := by
  unfold Obligations.LastWriteToASegmentWins
  intro v w a s
  refine ⟨_, _, exec_segInstr v a s, exec_segInstr w a _, ?_⟩
  rw [exec_segInstr, segWrite_segWrite]

/-! ### A step that accepts an instruction's word -/

/-- A step that accepts a word which decodes runs its instruction (R76, R191 (a)). -/
theorem step_word_ok {s : State} {w : CmdWord} {rest : List Input} {i : Instr} (hm : s.mode ≠ .shift)
    (hi : s.inputs = .word w :: rest) (hd : decode s.mode w = .ok i) : step s = exec i { s with inputs := rest } := by
  rw [step_word hi hm, acceptWord_of_ok (s := { s with inputs := rest }) rfl hd]

/-- Settles O24. -/
theorem stepRunsTheDecodedInstruction : Obligations.StepRunsTheDecodedInstruction := by
  unfold Obligations.StepRunsTheDecodedInstruction
  exact fun _ _ _ _ hm hi hd => step_word_ok hm hi hd

/-- No instruction is read in SHIFT (R77). -/
theorem readMode_ne_shift (i : Instr) : i.readMode ≠ .shift := by
  cases i <;> nofun

/-- A step that accepts an instruction's own word, in the MODE of its row. -/
theorem step_encode {s : State} {rest : List Input} {i : Instr} (hm : s.mode = i.readMode)
    (hi : s.inputs = .word (encode i) :: rest) : step s = exec i { s with inputs := rest } :=
  step_word_ok (hm ▸ readMode_ne_shift i) hi (hm ▸ decode_readMode_encode i)

/-! ### DISABLE_MANY as repeated DISABLE -/

/-- One DISABLE after another. -/
def disableEach (l : List Byte) (s : State) : State := l.foldl (fun u g => segWrite g false u) s

@[simp] theorem disableEach_nil (s : State) : disableEach [] s = s := rfl

@[simp] theorem disableEach_cons (g : Byte) (l : List Byte) (s : State) :
    disableEach (g :: l) s = disableEach l (segWrite g false s) := rfl

@[simp] theorem disableEach_mode (l : List Byte) (s : State) : (disableEach l s).mode = s.mode := by
  induction l generalizing s with
  | nil => rfl
  | cons g l ih => rw [disableEach_cons, ih, segWrite_mode]

@[simp] theorem disableEach_listRem (l : List Byte) (s : State) : (disableEach l s).listRem = s.listRem := by
  induction l generalizing s with
  | nil => rfl
  | cons g l ih => rw [disableEach_cons, ih, segWrite_listRem]

/-- Repeated DISABLE keeps a state clean exactly when every operand is a segment (R141, R148). -/
theorem disableEach_clean_iff (l : List Byte) (s : State) :
    (disableEach l s).Clean ↔ s.Clean ∧ ∀ g ∈ l, g.toNat < 64 := by
  induction l generalizing s with
  | nil => simp
  | cons g l ih =>
    rw [disableEach_cons, ih, exec_clean_iff (exec_disable g s), List.forall_mem_cons, and_assoc]
    simp [Instr.inRange]

/-- A segment write neither reads nor writes MODE, LISTREM and the schedule. -/
theorem segWrite_control (g : Byte) (v : Bool) (m : Mode) (r : BitVec 8) (x : List Input) (s : State) :
    segWrite g v { s with mode := m, listRem := r, inputs := x } =
      { segWrite g v s with mode := m, listRem := r, inputs := x } := by
  rcases Nat.lt_or_ge g.toNat 64 with h | h
  · simp only [segWrite_lt h]; rfl
  · simp only [segWrite_ge h]; rfl

/-- `s` with the words DISABLE g offered, for each g of `l`. -/
def offeringDisables (l : List Byte) (s : State) : State := { s with inputs := l.map fun g => .word (encode (.disable g)) }

/-- `s` in a list whose elements `l` are still to come, each offered as a word; with none to come the list is over. -/
def offeringElements (l : List Byte) (s : State) : State :=
  { s with
    mode := if l = [] then .idle else .list
    listRem := BitVec.ofNat 8 l.length
    inputs := l.map fun g => .word (encode (.seg g)) }

theorem step_offeringDisables {g : Byte} {l : List Byte} {s : State} (hm : s.mode = .idle) :
    step (offeringDisables (g :: l) s) = .next (offeringDisables l (segWrite g false s)) := by
  have hstep : step (offeringDisables (g :: l) s) = _ := step_encode (i := .disable g) hm rfl
  rw [hstep, exec_disable]
  have hwrite := segWrite_control g false s.mode s.listRem (l.map fun g => .word (encode (.disable g))) s
  refine congrArg Host.Outcome.next (hwrite.trans ?_)
  simp [offeringDisables]

theorem run_offeringDisables (l : List Byte) (s : State) (hm : s.mode = .idle) :
    Sys2Proof.core.run l.length (offeringDisables l s) = .next (offeringDisables [] (disableEach l s)) := by
  induction l generalizing s with
  | nil => rfl
  | cons g l ih =>
    rw [List.length_cons, run_succ_next (step_offeringDisables hm), ih _ (by simpa using hm), disableEach_cons]

/-- One element of the list: its segment is cleared, and it counts (R104). -/
theorem step_offeringElements {g : Byte} {l : List Byte} {s : State} (hl : l.length < 255) :
    step (offeringElements (g :: l) s) = .next (offeringElements l (segWrite g false s)) := by
  have hrem : (BitVec.ofNat 8 (l.length + 1)).toNat = l.length + 1 := by rw [BitVec.toNat_ofNat]; omega
  have hnext : BitVec.ofNat 8 (l.length + 1) - 1 = BitVec.ofNat 8 l.length := by
    apply BitVec.eq_of_toNat_eq
    simp only [BitVec.toNat_sub, hrem, BitVec.ofNat_eq_ofNat, BitVec.toNat_ofNat]
    omega
  have hlast : BitVec.ofNat 8 (l.length + 1) = 1 ↔ l = [] := by
    rw [← BitVec.toNat_inj, hrem, ← List.length_eq_zero_iff]
    simp
  have hwrite := segWrite_control g false .list (BitVec.ofNat 8 (l.length + 1)) (l.map fun g => .word (encode (.seg g))) s
  have hstep : step (offeringElements (g :: l) s) = _ := step_encode (i := .seg g) rfl rfl
  rw [hstep, exec_seg]
  refine congrArg Host.Outcome.next ((congrArg countElement hwrite).trans ?_)
  rw [countElement_of_list rfl (by simp only [hrem]; omega)]
  simp only [hnext, hlast]
  rfl

theorem run_offeringElements (l : List Byte) (s : State) (hl : l.length ≤ 255) :
    Sys2Proof.core.run l.length (offeringElements l s) = .next (offeringElements [] (disableEach l s)) := by
  induction l generalizing s with
  | nil => rfl
  | cons g l ih =>
    rw [List.length_cons] at hl
    rw [List.length_cons, run_succ_next (step_offeringElements hl), ih _ (by omega), disableEach_cons]

/-- `s` with the words of DISABLE_LIST l offered: the header, then its elements (R83). -/
def offeringList (l : List Byte) (s : State) : State :=
  { s with inputs := (encodeStream (Pseudo.disableList l).expand).map .word }

/-- The header loads LISTREM with the number of elements and enters LIST (R103). -/
theorem step_offeringList {l : List Byte} {s : State} (hl : l ≠ []) (hlen : l.length ≤ 255) (hm : s.mode = .idle) :
    step (offeringList l s) = .next (offeringElements l s) := by
  have hcount : BitVec.ofNat 8 l.length ≠ 0 := fun c => by
    have := congrArg BitVec.toNat c
    rw [ofNat_toNat_of_le hlen] at this
    exact hl (List.length_eq_zero_iff.1 this)
  have hstep : step (offeringList l s) = _ := step_encode (i := .disableMany (BitVec.ofNat 8 l.length)) hm rfl
  rw [hstep, exec_disableMany, loadList, if_neg hcount, offeringElements, if_neg hl, List.map_map, List.map_map]
  rfl

/-- Settles O18: both streams end after `disableEach`, in IDLE with LISTREM 0. -/
theorem disableManyEqualsRepeatedDisable : Obligations.DisableManyEqualsRepeatedDisable := by
  unfold Obligations.DisableManyEqualsRepeatedDisable
  intro l s hl hlen hm hr
  have hend : offeringElements [] (disableEach l s) = offeringDisables [] (disableEach l s) := by
    simp [offeringElements, offeringDisables, hm, hr]
  refine ⟨offeringDisables [] (disableEach l s), by simpa [offeringDisables] using hm, rfl, ?clean, ?list, ?disables⟩
  case clean => exact disableEach_clean_iff l s
  case list => exact (run_succ_next (step_offeringList hl hlen hm)).trans (hend ▸ run_offeringElements l s hlen)
  case disables =>
    rw [encodeStream, List.map_map, List.map_map]
    exact run_offeringDisables l s hm

/-! ### A host with a valid topology -/

theorem segWrite_F_self {g : Byte} (h : g.toNat < 64) (v : Bool) (s : State) : (segWrite g v s).F ⟨g.toNat, h⟩ = v := by
  rw [segWrite_lt h, memWrite_F, if_pos rfl]

theorem segWrite_faultRange_of_lt {g : Byte} (h : g.toNat < 64) (v : Bool) (s : State) :
    (segWrite g v s).faultRange = s.faultRange := by
  rw [segWrite_lt h, memWrite_faultRange]

/-- Settles O52: the entries of a valid table are the segment indices, each once. -/
theorem validTopologyNeverFaults : Obligations.ValidTopologyNeverFaults := by
  unfold Obligations.ValidTopologyNeverFaults
  intro topo hvalid
  refine ⟨fun e he s => ?_, by simpa using hvalid.length_eq, hvalid.nodup_iff.2 List.nodup_range,
    fun a b _ _ => seg_ext⟩
  have hlt : e < 64 := List.mem_range.1 (hvalid.mem_iff.1 he)
  have hval : (BitVec.ofNat 8 e).toNat = e := ofNat_toNat_of_le (by omega)
  have hseg : (BitVec.ofNat 8 e).toNat < 64 := by omega
  exact ⟨⟨_, hseg⟩, hval,
    ⟨_, exec_enable _ s, segWrite_faultRange_of_lt hseg true s, segWrite_F_self hseg true s⟩,
    ⟨_, exec_disable _ s, segWrite_faultRange_of_lt hseg false s, segWrite_F_self hseg false s⟩,
    ⟨_, exec_seg _ s, segWrite_faultRange_of_lt hseg false s, segWrite_F_self hseg false s⟩⟩

end Sys2Proof.Machine
end

section
/-! SUPPORT. The proofs of the family 'other' about the command port and the fault flags: the moves and who makes them
(R24, R191), where the machine stops (R192), the effect of RST (R171), what sets and clears a flag and that no step depends on
one (R21, R147). -/

namespace Sys2Proof.Machine

/-! ### Which move is next -/

theorem nextMove_accept_iff (s : State) (w : CmdWord) :
    s.nextMove = .accept w ↔ s.mode ≠ .shift ∧ ∃ rest, s.inputs = .word w :: rest := by
  rcases nextMove_cases s with ⟨v, rest, hi, hm, hn⟩ | ⟨hm, -, -, hn⟩ | ⟨rest, hi, hn⟩ | ⟨l, rest, hi, hn⟩ |
    ⟨rest, hi, hm, hn⟩ | ⟨hi, hm, hn⟩ <;> simp [*]

/-- Settles O26, each clause by the cases of `nextMove_cases`. -/
theorem movesAreAcceptMicroStepResetHven : Obligations.MovesAreAcceptMicroStepResetHven := by
  unfold Obligations.MovesAreAcceptMicroStepResetHven
  refine fun s => ⟨nextMove_accept_iff s, ?_, ?_, ?_, fun _ _ => step_hven⟩ <;>
  rcases nextMove_cases s with ⟨v, rest, hi, hm, hn⟩ | ⟨hm, hr, hh, hn⟩ | ⟨rest, hi, hn⟩ | ⟨l, rest, hi, hn⟩ |
    ⟨rest, hi, hm, hn⟩ | ⟨hi, hm, hn⟩ <;> simp [*]

/-! ### The command port -/

theorem rst_iff (s : State) : s.rst = true ↔ ∃ rest, s.inputs = .reset :: rest := by
  simp [State.rst, List.head?_eq_some_iff]

theorem cmdReady_iff (s : State) : s.cmdReady = true ↔ s.mode ≠ .shift ∧ ∀ rest, s.inputs ≠ .reset :: rest := by
  simp [State.cmdReady, ← Bool.not_eq_true, rst_iff]

theorem cmdWord?_iff (s : State) (w : CmdWord) : s.cmdWord? = some w ↔ ∃ rest, s.inputs = .word w :: rest := by
  unfold State.cmdWord?
  split <;> simp_all

/-- A word offered during SHIFT is held: the schedule does not move (R24). -/
theorem takeInput_of_held {s : State} {w : CmdWord} {rest : List Input} (hm : s.mode = .shift)
    (hi : s.inputs = .word w :: rest) : s.takeInput = s := by
  obtain ⟨_, _, _, _, _, _, _, _, _, _, _, _, _⟩ := s
  simp_all [State.takeInput, State.inputsAfter]

/-- Settles O25: in SHIFT both steps are the micro-step, which does not read the schedule. -/
theorem commandPortHandshake : Obligations.CommandPortHandshake := by
  unfold Obligations.CommandPortHandshake
  refine fun s => ⟨cmdReady_iff s, fun w => ?accept, fun hm w rest t h => ?held⟩
  case accept =>
    rw [nextMove_accept_iff, cmdReady_iff, State.cmdValid, cmdWord?_iff]
    constructor
    · rintro ⟨hm, rest, hi⟩
      exact ⟨⟨hm, by simp [hi]⟩, by simp [(cmdWord?_iff s w).2 ⟨rest, hi⟩], rest, hi⟩
    · rintro ⟨⟨hm, -⟩, -, hword⟩
      exact ⟨hm, hword⟩
  case held =>
    have hfree : microStep { s with inputs := [] } = .next t :=
      (step_words (s := { s with inputs := [] }) (stream := []) rfl hm).symm.trans h
    have hnext : ({ s with inputs := .word w :: rest } : State).nextMove = .microStep :=
      nextMove_shift hm nofun nofun
    rw [step_microStep hnext, takeInput_of_held (s := { s with inputs := .word w :: rest }) hm rfl]
    exact microStep_inputs (s := { s with inputs := [] }) (.word w :: rest) hfree

/-! ### Where the machine stops -/

/-- Whether a step answers a next state, and why not: the schedule is used up outside SHIFT, or no rule names the micro-step
(logs 4 and 5). -/
theorem step_outcome (s : State) :
    (∃ t, step s = .next t) ∨
    (s.inputs = [] ∧ s.mode ≠ .shift ∧ step s = .fault (noMoveFault s)) ∨
    (s.mode = .shift ∧ 193 < s.txStep.toNat ∧ step s = .fault .noSuchMicroStep) := by
  rcases nextMove_cases s with ⟨w, rest, hi, hm, -⟩ | ⟨hm, -, -, hn⟩ | ⟨rest, hi, -⟩ | ⟨l, rest, hi, -⟩ |
    ⟨rest, hi, hm, -⟩ | ⟨hi, hm, -⟩
  · rw [step_word hi hm]
    exact .inl (acceptWord_isNext w _)
  · rw [step_microStep hn]
    by_cases hx : s.txStep.toNat ≤ 193
    · exact .inl (microStep_isNext (s := s.takeInput) hx)
    · have hdrive : microDrive s.takeInput.W s.takeInput.txStep.toNat = none := microDrive_above _ (Nat.lt_of_not_le hx)
      exact .inr (.inr ⟨hm, by omega, by simp only [microStep, hdrive]⟩)
  · exact .inl ⟨_, step_reset hi⟩
  · exact .inl ⟨_, step_hven hi⟩
  · exact .inl ⟨_, step_wait hi hm⟩
  · exact .inr (.inl ⟨hi, hm, step_nil hi hm⟩)

/-- From a state of the invariant only an end of the schedule outside SHIFT stops the machine (R192). -/
theorem step_isNext_or_done {s : State} (hs : s.Inv) : (∃ t, step s = .next t) ∨ (s.inputs = [] ∧ s.mode ≠ .shift) := by
  rcases step_outcome s with h | ⟨hi, hm, -⟩ | ⟨-, hx, -⟩
  · exact .inl h
  · exact .inr ⟨hi, hm⟩
  · exact absurd hs.txStep_le (by omega)

theorem step_ended {s : State} (h : s.Ended) : step s = .fault .streamEnded := by
  obtain ⟨hi, hm⟩ := h
  rw [step_nil hi (by simp [hm]), noMoveFault, hm]

theorem step_stuck {s : State} (h : s.Stuck) : step s = .fault .stuckInList := by
  obtain ⟨hi, hm⟩ := h
  rw [step_nil hi (by simp [hm]), noMoveFault, hm]

/-- With the schedule used up outside SHIFT, the run has ended or is stuck (R192). -/
theorem ended_or_stuck {s : State} (hi : s.inputs = []) (hm : s.mode ≠ .shift) : s.Ended ∨ s.Stuck := by
  cases hmode : s.mode with
  | idle => exact .inl ⟨hi, hmode⟩
  | list => exact .inr ⟨hi, hmode⟩
  | shift => exact absurd hmode hm

/-- The reasons a step can stop for, each with its state. -/
theorem step_fault_cases {s : State} {r : Fault} (h : step s = .fault r) :
    s.Ended ∧ r = .streamEnded ∨ s.Stuck ∧ r = .stuckInList ∨ 193 < s.txStep.toNat ∧ r = .noSuchMicroStep := by
  rcases step_outcome s with ⟨t, ht⟩ | ⟨hi, hm, -⟩ | ⟨-, hx, ht⟩
  · cases h.symm.trans ht
  · rcases ended_or_stuck hi hm with hend | hstuck
    · exact .inl ⟨hend, Host.Outcome.fault.inj (h.symm.trans (step_ended hend))⟩
    · exact .inr (.inl ⟨hstuck, Host.Outcome.fault.inj (h.symm.trans (step_stuck hstuck))⟩)
  · exact .inr (.inr ⟨hx, Host.Outcome.fault.inj (h.symm.trans ht)⟩)

/-- Settles O30, by the cases of `step_fault_cases`. -/
theorem machineStopsOnlyWhereNoMoveExists : Obligations.MachineStopsOnlyWhereNoMoveExists := by
  unfold Obligations.MachineStopsOnlyWhereNoMoveExists
  intro s
  refine ⟨⟨fun h => ?ended, step_ended⟩, ⟨fun h => ?stuck, step_stuck⟩, fun hs h => ?micro, fun r h => ?refused⟩
  case ended => simpa using step_fault_cases h
  case stuck => simpa using step_fault_cases h
  case micro =>
    have hx : 193 < s.txStep.toNat := by simpa using step_fault_cases h
    exact absurd hs.txStep_le (by omega)
  case refused =>
    rcases step_outcome s with ⟨t, ht⟩ | ⟨-, -, ht⟩ | ⟨-, -, ht⟩ <;> cases h.symm.trans ht

/-! ### RST -/

/-- Settles O45. -/
theorem resetEffect : Obligations.ResetEffect := by
  unfold Obligations.ResetEffect
  intro s rest hi
  have hrst : s.rst = true := (rst_iff s).2 ⟨rest, hi⟩
  refine ⟨by simp [State.cmdReady, hrst], _, step_reset hi, by simp [State.cmdReady], by simp, ?_⟩
  simp

/-! ### What sets and what clears a fault flag -/

/-- The operands of 64 and above of R141. -/
theorem inRange_eq_false_iff (i : Instr) :
    i.inRange = false ↔ ∃ g : Byte, 64 ≤ g.toNat ∧ (i = .enable g ∨ i = .disable g ∨ i = .seg g) := by
  cases i <;> simp [Instr.inRange]

/-- An instruction sets FAULT_RANGE exactly when its segment operand is out of range (R141). -/
theorem exec_faultRange {i : Instr} {s t : State} (h : exec i s = .next t) :
    t.faultRange = (s.faultRange || !i.inRange) := by
  cases i <;> obtain rfl := Host.Outcome.next.inj h <;> simp [Instr.inRange, ← decide_not]

/-- No instruction sets FAULT_ILLEGAL (R142). -/
theorem exec_faultIllegal {i : Instr} {s t : State} (h : exec i s = .next t) : t.faultIllegal = s.faultIllegal := by
  obtain ⟨-, -, -, -, -, -, -, hillegal⟩ := exec_frame h
  exact hillegal

/-- What one step does to the two fault flags, from state `s` to state `t` (R21, R141, R142). -/
inductive FlagStep (s t : State) : Prop where
  /-- An instruction is accepted. -/
  | instr (w : CmdWord) (i : Instr) (hn : s.nextMove = .accept w) (hd : decode s.mode w = .ok i)
      (range : t.faultRange = (s.faultRange || !i.inRange)) (illegal : t.faultIllegal = s.faultIllegal)
  /-- A word that is no instruction in the present MODE is accepted. -/
  | illegalWord (w : CmdWord) (e : Illegal) (hn : s.nextMove = .accept w) (hd : decode s.mode w = .error e)
      (range : t.faultRange = s.faultRange) (illegal : t.faultIllegal = true)
  /-- RST. -/
  | reset (hn : s.nextMove = .reset) (range : t.faultRange = false) (illegal : t.faultIllegal = false)
  /-- Any other move. -/
  | keep (ha : ∀ w, s.nextMove ≠ .accept w) (hr : s.nextMove ≠ .reset) (range : t.faultRange = s.faultRange)
      (illegal : t.faultIllegal = s.faultIllegal)

/-- Every step that answers a next state is one of the cases of `FlagStep`. -/
theorem step_flags {s t : State} (h : step s = .next t) : FlagStep s t := by
  rcases step_cases h with ⟨w, rest, i, -, -, hn, hd, he⟩ | ⟨w, rest, e, -, -, hn, hd, rfl⟩ | ⟨-, hn, h⟩ |
    ⟨rest, -, hn, rfl⟩ | ⟨l, rest, -, hn, rfl⟩ | ⟨rest, -, -, hn, rfl⟩
  · exact .instr w i hn hd (exec_faultRange (s := { s with inputs := rest }) he)
      (exec_faultIllegal (s := { s with inputs := rest }) he)
  · exact .illegalWord w e hn hd (by simp) (by simp)
  · obtain ⟨-, -, range, illegal, -⟩ := microStep_frame h
    exact .keep (by simp [hn]) (by simp [hn]) range illegal
  · exact .reset hn rfl rfl
  · exact .keep (by simp [hn]) (by simp [hn]) rfl rfl
  · exact .keep (by simp [hn]) (by simp [hn]) rfl rfl

/-- Settles O21, by the cases of `FlagStep`. -/
theorem faultFlagsAreSetByBadWordsAndClearedByReset : Obligations.FaultFlagsAreSetByBadWordsAndClearedByReset := by
  unfold Obligations.FaultFlagsAreSetByBadWordsAndClearedByReset
  intro s t h
  cases step_flags h with
  | instr w i hn hd range illegal =>
    have hrange : (∃ (v : CmdWord) (g : Byte), s.nextMove = .accept v ∧ 64 ≤ g.toNat ∧
        (decode s.mode v = .ok (.enable g) ∨ decode s.mode v = .ok (.disable g) ∨ decode s.mode v = .ok (.seg g))) ↔
        i.inRange = false := by
      simp [inRange_eq_false_iff, hn, hd]
    refine ⟨by simp [hn], fun _ => ⟨?_, ?_⟩, ?_⟩
    · rw [hrange, range]; simp
    · simp [hn, hd, illegal]
    · simp +contextual [illegal]
  | illegalWord w e hn hd range illegal =>
    refine ⟨by simp [hn], fun _ => ⟨?_, ?_⟩, ?_⟩
    · simp [hn, hd, range]
    · simp [hn, hd, illegal]
    · simp +contextual [range]
  | reset hn range illegal => simp [hn, range, illegal]
  | keep ha hr range illegal => simp +contextual [ha, hr, range, illegal]

/-- The status vector's bits, lowest first (R22). -/
theorem status_getLsbD (s : State) (j : Nat) :
    s.status.getLsbD j = [s.busy, s.listFlag, s.faultRange, s.faultIllegal].getD j false := by
  simp only [State.status, BitVec.getLsbD_append]
  rcases j with _ | _ | _ | _ | j <;> simp

/-- Settles O23. -/
theorem statusVectorBits : Obligations.StatusVectorBits := by
  unfold Obligations.StatusVectorBits
  intro s
  simp only [status_getLsbD]
  refine ⟨?busy, ?list, rfl, rfl, fun j hj => ?reserved, rfl, rfl, ?exclusive⟩
  case busy => simp [State.busy, beq_eq_decide]
  case list => simp [State.listFlag, beq_eq_decide]
  case reserved => simp [hj]
  case exclusive => cases hm : s.mode <;> simp [State.busy, State.listFlag, hm]

/-! ### No step depends on a fault flag -/

/-- The same state with other values of the two flags. -/
def State.withFlags (a b : Bool) (s : State) : State := { s with faultRange := a, faultIllegal := b }

theorem segWrite_withFlags (g : Byte) (v a b : Bool) (s : State) :
    ∃ c, segWrite g v (s.withFlags a b) = (segWrite g v s).withFlags c b := by
  rcases Nat.lt_or_ge g.toNat 64 with h | h
  · exact ⟨a, by simp only [segWrite_lt h]; rfl⟩
  · exact ⟨true, by simp only [segWrite_ge h]; rfl⟩

theorem exec_withFlags {i : Instr} {s t : State} (a b : Bool) (h : exec i s = .next t) :
    ∃ c d, exec i (s.withFlags a b) = .next (t.withFlags c d) := by
  cases i <;> obtain rfl := Host.Outcome.next.inj h
  case enable g =>
    obtain ⟨c, hc⟩ := segWrite_withFlags g true a b s
    exact ⟨c, b, congrArg _ hc⟩
  case disableMany n =>
    refine ⟨a, b, congrArg Host.Outcome.next ?_⟩
    by_cases hz : n = 0
    · simp only [loadList, if_pos hz]
    · simp only [loadList, if_neg hz]; rfl
  case seg g =>
    obtain ⟨c, hc⟩ := segWrite_withFlags g false a b s
    exact ⟨c, b, congrArg (fun u => Host.Outcome.next (countElement u)) hc⟩
  case disableAll => exact ⟨a, b, rfl⟩
  case disable g =>
    obtain ⟨c, hc⟩ := segWrite_withFlags g false a b s
    exact ⟨c, b, congrArg _ hc⟩
  case transmit => exact ⟨a, b, rfl⟩

theorem rejectWord_withFlags (a b : Bool) (s : State) : rejectWord (s.withFlags a b) = (rejectWord s).withFlags a true := by
  by_cases hm : s.mode = .list
  · rw [rejectWord_of_list hm, rejectWord_of_list (s := s.withFlags a b) hm]; rfl
  · rw [rejectWord_of_not_list hm, rejectWord_of_not_list (s := s.withFlags a b) hm]; rfl

theorem advanceTx_withFlags (a b : Bool) (s : State) : advanceTx (s.withFlags a b) = (advanceTx s).withFlags a b := by
  have htx : (s.withFlags a b).txStep = s.txStep := rfl
  unfold advanceTx
  rw [htx]
  split <;> rfl

theorem microStep_withFlags {s t : State} (a b : Bool) (h : microStep s = .next t) :
    microStep (s.withFlags a b) = .next (t.withFlags a b) := by
  obtain ⟨-, d, hd, rfl⟩ := microStep_next h
  rw [microStep_of_drive (s := s.withFlags a b) hd]
  refine congrArg _ ?_
  have hdrive : drive d (s.withFlags a b) = (drive d s).withFlags a b := by
    rcases d with ⟨_ | _ | _, _⟩ <;> rfl
  rw [hdrive, advanceTx_withFlags]

/-- Settles O22: the same move is next whatever the flags are, and each of its operations writes the rest alike. -/
theorem faultFlagsChangeNoBehaviour : Obligations.FaultFlagsChangeNoBehaviour := by
  unfold Obligations.FaultFlagsChangeNoBehaviour
  intro s t a b h
  change ∃ c d, step (s.withFlags a b) = .next (t.withFlags c d)
  rcases step_cases h with ⟨w, rest, i, hi, hm, -, hd, he⟩ | ⟨w, rest, e, hi, hm, -, hd, rfl⟩ | ⟨-, hn, h⟩ |
    ⟨rest, hi, -, rfl⟩ | ⟨l, rest, hi, -, rfl⟩ | ⟨rest, hi, hm, -, rfl⟩
  · rw [step_word_ok (s := s.withFlags a b) hm hi hd]
    exact exec_withFlags a b he
  · rw [step_word_error (s := s.withFlags a b) hi hm hd]
    exact ⟨a, true, congrArg _ (rejectWord_withFlags a b { s with inputs := rest })⟩
  · rw [step_microStep (s := s.withFlags a b) hn]
    exact ⟨a, b, microStep_withFlags a b h⟩
  · exact ⟨false, false, step_reset (s := s.withFlags a b) hi⟩
  · exact ⟨a, b, step_hven (s := s.withFlags a b) hi⟩
  · exact ⟨a, b, step_wait (s := s.withFlags a b) hi hm⟩

end Sys2Proof.Machine
end

section
/-! SUPPORT. The proofs of the family 'other' about whole transmits: the 194 micro-steps as one step (R126), the chain after each
clock edge (R125), the pin trace (R123), progress (R131), and what glows at the end (R29, R177). -/

namespace Sys2Proof.Machine

/-! ### Several micro-steps -/

/-- A row of micro-steps that goes on is a first micro-step and the rest. -/
theorem microSteps_succ_cases {n : Nat} {s u : State} (h : microSteps (n + 1) s = .next u) :
    ∃ t, microStep s = .next t ∧ microSteps n t = .next u := by
  cases e : microStep s with
  | next t => exact ⟨t, rfl, by rw [← microSteps_succ_next e, h]⟩
  | fault r => simp [microSteps, e] at h
  | refused r => simp [microSteps, e] at h

/-- What micro-steps leave alone, however many there are (R120). -/
theorem microSteps_frame {n : Nat} {s t : State} (h : microSteps n s = .next t) :
    t.frame = s.frame ∧ t.faultRange = s.faultRange ∧ t.faultIllegal = s.faultIllegal ∧ t.hven = s.hven ∧
    t.inputs = s.inputs := by
  induction n generalizing s with
  | zero => obtain rfl := Host.Outcome.next.inj h; exact ⟨rfl, rfl, rfl, rfl, rfl⟩
  | succ n ih =>
    obtain ⟨u, hu, hrest⟩ := microSteps_succ_cases h
    obtain ⟨frame, -, range, illegal, hven, inputs⟩ := microStep_frame hu
    rw [← frame, ← range, ← illegal, ← hven, ← inputs]
    exact ih hrest

/-- Before micro-step 193, micro-steps only count (R19). -/
theorem microSteps_before_last {n : Nat} {s : State} (h : s.txStep.toNat + n ≤ 193) :
    ∃ t, microSteps n s = .next t ∧ t.mode = s.mode ∧ t.txStep.toNat = s.txStep.toNat + n := by
  induction n generalizing s with
  | zero => exact ⟨s, rfl, rfl, rfl⟩
  | succ n ih =>
    obtain ⟨u, hu⟩ := microStep_isNext (s := s) (by omega)
    obtain ⟨-, hbefore⟩ := microStep_control hu
    obtain ⟨hmode, htx⟩ := hbefore (by omega)
    obtain ⟨t, ht, hmode', htx'⟩ := ih (s := u) (by omega)
    exact ⟨t, by rw [microSteps_succ_next hu, ht], hmode'.trans hmode, by omega⟩

/-- The micro-steps still to come of a transmit in progress end in IDLE (R131). -/
theorem microSteps_to_idle {s : State} (h : s.txStep.toNat ≤ 193) :
    ∃ t, microSteps (194 - s.txStep.toNat) s = .next t ∧ t.mode = .idle := by
  obtain ⟨u, hu, -, htx⟩ := microSteps_before_last (n := 193 - s.txStep.toNat) (s := s) (by omega)
  obtain ⟨t, ht⟩ := microStep_isNext (s := u) (by omega)
  obtain ⟨hlast, -⟩ := microStep_control ht
  obtain ⟨hmode, -⟩ := hlast (by omega)
  have hcount : 194 - s.txStep.toNat = 193 - s.txStep.toNat + 1 := by omega
  exact ⟨t, by rw [hcount, microSteps_add_next hu, microSteps_succ_next ht]; rfl, hmode⟩

/-! ### Whole transmits -/

/-- The 194 micro-steps of a transmit are one step (R126). -/
theorem microSteps_whole {s : State} (h : s.txStep = 0) (hc : s.sclk = false) :
    microSteps 194 s = .next (macroTransmit s) := by
  have hbits := microSteps_afterBits h hc (n := 64) (Nat.le_refl 64)
  have hlast : microStep (afterBits s 64) = .next (macroTransmit s) := by
    rw [microStep_last rfl]
    simp [afterBits, macroTransmit, chainAfter_full, hc]
  exact (microSteps_add_next (n := 1) hbits).trans (microSteps_succ_next (n := 0) hlast)

/-- From the start of a transmit, with nothing but words to come, 194 steps of the machine are one step. -/
theorem run_whole_transmit {s : State} {stream : List CmdWord} (hm : s.mode = .shift) (h : s.txStep = 0)
    (hc : s.sclk = false) (hi : s.inputs = stream.map .word) : Sys2Proof.core.run 194 s = .next (macroTransmit s) :=
  (run_eq_microSteps hi hm (by simp [h])).trans (microSteps_whole h hc)

/-- Settles O32. -/
theorem transmitIsOneMacroStep : Obligations.TransmitIsOneMacroStep := by
  unfold Obligations.TransmitIsOneMacroStep
  exact fun s stream hm h hc hi => run_whole_transmit hm h hc hi

/-- Settles O48: the latch holds W, whose bit at wpos(k) is F[k]. -/
theorem completedTransmitShowsTheFrame : Obligations.CompletedTransmitShowsTheFrame := by
  unfold Obligations.CompletedTransmitShowsTheFrame
  intro s stream hm h hc hi
  exact ⟨_, run_whole_transmit hm h hc hi, fun k => by simp only [State.glows, macroTransmit_hven, macroTransmit_out,
    W_getLsbD_wpos]⟩

/-- The data and the clock-up micro-step of bit `i` make one clock edge (R121, R27). -/
theorem microSteps_edge {s : State} {i : Nat} (hi : i ≤ 63) (h : s.txStep.toNat = 1 + 3 * i) (hc : s.sclk = false) :
    ∃ t, microSteps 2 s = .next t ∧ t.out = s.out ∧ t.sr = shiftIn s.sr (s.W.getLsbD (63 - i)) := by
  have hrise := microStep_rise (s := { s with sdata := s.W.getLsbD (63 - i), txStep := BitVec.ofNat 8 (2 + 3 * i) }) hi
    (ofNat_toNat_of_le (by omega))
  exact ⟨_, (microSteps_succ_next (microStep_data hi h)).trans (microSteps_succ_next (n := 0) hrise), rfl, if_pos hc⟩

/-- After `3 * k` micro-steps the k-th clock edge is just made (R125). -/
theorem microSteps_edges {s : State} (h : s.txStep = 0) (hc : s.sclk = false) {k : Nat} (hk : k ≤ 64) :
    ∃ t, microSteps (3 * k) s = .next t ∧ t.out = s.out ∧ t.sr = chainAfter s.W s.sr k := by
  cases k with
  | zero => exact ⟨s, rfl, rfl, (chainAfter_zero _ _).symm⟩
  | succ i =>
    have hbits := microSteps_afterBits h hc (n := i) (by omega)
    have htx : (afterBits s i).txStep.toNat = 1 + 3 * i := ofNat_toNat_of_le (by omega)
    obtain ⟨t, ht, hout, hsr⟩ := microSteps_edge (by omega) htx hc
    have hcount : 3 * (i + 1) = 1 + 3 * i + 2 := by omega
    exact ⟨t, by rw [hcount, microSteps_add_next hbits, ht], hout, hsr.trans (chainAfter_succ _ _ (by omega))⟩

/-- Settles O33. -/
theorem chainAfterEachClockEdge : Obligations.ChainAfterEachClockEdge := by
  unfold Obligations.ChainAfterEachClockEdge
  intro s stream k hm h hc hi hk
  obtain ⟨t, ht, hout, hsr⟩ := microSteps_edges h hc hk
  obtain ⟨hframe, -⟩ := microSteps_frame ht
  refine ⟨t, ?_, hout, hframe, fun j hj => ?_⟩
  · exact (run_eq_microSteps hi hm (by simp [h]; omega)).trans ht
  · rw [hsr, chainAfter_getLsbD _ _ hk hj]

/-- Settles O35: `microSteps_to_idle` and, for fewer steps, `microSteps_before_last`. -/
theorem transmitAlwaysCompletes : Obligations.TransmitAlwaysCompletes := by
  unfold Obligations.TransmitAlwaysCompletes
  intro s stream hm hx hi
  constructor
  · obtain ⟨t, ht, hidle⟩ := microSteps_to_idle hx
    obtain ⟨frame, range, illegal, -, inputs⟩ := microSteps_frame ht
    exact ⟨t, (run_eq_microSteps hi hm (by omega)).trans ht, hidle, inputs, frame, by rw [State.Clean, range, illegal]⟩
  · intro m hlt
    obtain ⟨u, hu, hmode, -⟩ := microSteps_before_last (n := m) (s := s) (by omega)
    exact ⟨u, (run_eq_microSteps hi hm (by omega)).trans hu, hmode.trans hm⟩

/-! ### The pin trace -/

/-- During a transmit, with nothing but words to come, the pin trace is the pin events of the micro-steps made (R121, R123). -/
theorem pinTrace_shift {n : Nat} {s : State} {stream : List CmdWord} (hi : s.inputs = stream.map .word)
    (hm : s.mode = .shift) (hn : s.txStep.toNat + n ≤ 194) :
    pinTrace n s = (List.range' s.txStep.toNat n).flatMap fun x => (microDrive s.W x).toList := by
  induction n generalizing s with
  | zero => rfl
  | succ n ih =>
    obtain ⟨t, ht⟩ := microStep_isNext (s := s) (by omega)
    have hstep : step s = .next t := (step_words hi hm).trans ht
    have hdrives : s.stepDrives = (microDrive s.W s.txStep.toNat).toList := by
      rw [State.stepDrives, nextMove_words hi hm]
    rw [List.range'_succ, List.flatMap_cons, pinTrace, hstep, ← hdrives]
    refine congrArg (s.stepDrives ++ ·) ?_
    cases n with
    | zero => rfl
    | succ n =>
      obtain ⟨-, hbefore⟩ := microStep_control ht
      obtain ⟨hmode, htx⟩ := hbefore (by omega)
      obtain ⟨hframe, -, -, -, -, hinputs⟩ := microStep_frame ht
      rw [ih (hinputs.trans hi) (hmode.trans hm) (by omega), htx, W_congr hframe]

/-- The micro-steps of bit `i` make its three pin events. -/
theorem microDrive_bit (w : Word64) {i : Nat} (hi : i ≤ 63) :
    ((List.range' (1 + 3 * i) 3).flatMap fun x => (microDrive w x).toList) = bitDrives w i := by
  have hrise : 1 + 3 * i + 1 = 2 + 3 * i := by omega
  have hfall : 2 + 3 * i + 1 = 3 + 3 * i := by omega
  simp only [List.range'_succ, List.range'_zero, List.flatMap_cons, List.flatMap_nil, microDrive_data w hi, hrise,
    hfall, microDrive_rise w hi, microDrive_fall w hi]
  rfl

theorem microDrive_bits (w : Word64) {n : Nat} (hn : n ≤ 64) :
    ((List.range' 1 (3 * n)).flatMap fun x => (microDrive w x).toList) = (List.range n).flatMap (bitDrives w) := by
  induction n with
  | zero => rfl
  | succ n ih =>
    rw [Nat.mul_succ, ← List.range'_append_1, List.flatMap_append, ih (by omega), microDrive_bit w (by omega),
      List.range_succ, List.flatMap_append, List.flatMap_singleton]

/-- The 194 micro-steps make the pin events of R123. -/
theorem microDrive_trace (w : Word64) :
    ((List.range' 0 194).flatMap fun x => (microDrive w x).toList) = transmitTrace w := by
  have hsplit : List.range' 0 (3 * 64 + 1 + 1) = 0 :: (List.range' 1 (3 * 64) ++ [1 + 3 * 64]) := by
    rw [List.range'_succ, List.range'_1_concat]
  refine (congrArg (List.flatMap fun x => (microDrive w x).toList) hsplit).trans ?_
  rw [List.flatMap_cons, List.flatMap_append, microDrive_bits w (Nat.le_refl 64)]
  rfl

/-- Settles O34. -/
theorem pinTraceOfOneTransmit : Obligations.PinTraceOfOneTransmit := by
  unfold Obligations.PinTraceOfOneTransmit
  intro s stream hm h hi
  have hx : s.txStep.toNat = 0 := by simp [h]
  rw [pinTrace_shift hi hm (by omega), hx, microDrive_trace]
  rfl

/-! ### The startup sequence -/

/-- Settles O47: DISABLE_ALL makes W zero, the transmit sends it, and no micro-step writes HVEN. -/
theorem startupBlanksTheDisplay : Obligations.StartupBlanksTheDisplay := by
  unfold Obligations.StartupBlanksTheDisplay
  intro s hc
  have hW : ({ clearFrame s with mode := .shift, txStep := 0 } : State).W = 0 := clearFrame_W s
  refine ⟨_, _, _, exec_disableAll s, exec_transmit _, microSteps_whole rfl hc, rfl, hW, hW, hW, fun k => ?dark, Iff.rfl,
    fun hv n u hu k => ?dim⟩
  case dark => simp only [State.glows, macroTransmit_out, hW]; simp
  case dim =>
    obtain ⟨-, -, -, hven, -⟩ := microSteps_frame hu
    have hoff : u.hven = false := hven.trans hv
    simp [State.glows, hoff]

end Sys2Proof.Machine
end

section
/-! SUPPORT. The proofs of the family 'other' about whole runs: what glows is a committed frame (R29, R193), every
schedule comes to its end or to the stuck state (R192), and which streams leave a clean end (R148). -/

namespace Sys2Proof.Machine

/-! ### Only committed frames glow -/

/-- A step commits exactly when SLATCH rises in it (R28, R193 (2)). -/
theorem commits_iff_latch_rise {s t : State} (h : step s = .next t) :
    s.commits = true ↔ s.slatch = false ∧ t.slatch = true := by
  constructor
  · intro hcommit
    obtain ⟨hlow, hdrives⟩ : s.slatch = false ∧ s.stepDrives = [⟨.slatch, true⟩] := by
      simpa [State.commits] using hcommit
    refine ⟨hlow, ?_⟩
    unfold State.stepDrives at hdrives
    split at hdrives
    · rename_i hn
      rw [step_microStep hn] at h
      obtain ⟨-, d, hd, rfl⟩ := microStep_next h
      have hd' : microDrive s.W s.txStep.toNat = some d := hd
      rw [hd'] at hdrives
      obtain rfl : d = ⟨.slatch, true⟩ := by simpa using hdrives
      simp
    · simp [resetDrives] at hdrives
    · simp at hdrives
  · rintro ⟨hlow, hhigh⟩
    obtain ⟨-, hn, hx, -⟩ := step_latch_rise h hlow hhigh
    have hdrives : s.stepDrives = [⟨.slatch, true⟩] := by
      rw [State.stepDrives, hn, hx, microDrive_last]; rfl
    simp [State.commits, hlow, hdrives]

theorem step_out_of_not_commits {s t : State} (h : step s = .next t) (hc : s.commits = false) : t.out = s.out := by
  rw [step_out h, if_neg]
  intro hrise
  simp [(commits_iff_latch_rise h).2 hrise] at hc

theorem displayHistory_succ {n : Nat} {s t : State} (h : step s = .next t) :
    displayHistory (n + 1) s = (if s.commits then [t.out] else []) ++ displayHistory n t := by
  rw [displayHistory, h]

/-- After a run the latch holds the last value of the display history, or what it held before if nothing was committed. -/
theorem run_out {n : Nat} {s t : State} (h : Sys2Proof.core.run n s = .next t) :
    t.out = (displayHistory n s).getLast?.getD s.out := by
  induction n generalizing s with
  | zero => obtain rfl := Host.Outcome.next.inj h; rfl
  | succ n ih =>
    obtain ⟨u, hu, hrest⟩ := run_succ_cases h
    rw [ih hrest, displayHistory_succ hu, List.getLast?_append]
    cases hlast : (displayHistory n u).getLast? with
    | some w => rfl
    | none =>
      cases hc : s.commits with
      | true => rfl
      | false => exact step_out_of_not_commits hu hc

/-- While nothing has been committed, the startup contract keeps HVEN at 0 (R176). -/
theorem run_hven_of_dark {n : Nat} {s t : State} (h : Sys2Proof.core.run n s = .next t)
    (hdark : darkUntilCommit n s = true) (hnone : displayHistory n s = []) : t.hven = false := by
  induction n generalizing s with
  | zero =>
    obtain rfl := Host.Outcome.next.inj h
    simpa [darkUntilCommit] using hdark
  | succ n ih =>
    obtain ⟨u, hu, hrest⟩ := run_succ_cases h
    rw [displayHistory_succ hu, List.append_eq_nil_iff] at hnone
    obtain ⟨hfirst, hlater⟩ := hnone
    have hc : s.commits = false := by
      cases hc : s.commits
      · rfl
      · simp [hc] at hfirst
    have hdark' : darkUntilCommit n u = true := by
      simp only [darkUntilCommit, hu, hc, Bool.false_or, Bool.and_eq_true] at hdark
      exact hdark.2
    exact ih hrest hdark' hlater

/-- Settles O49: nothing glows at HVEN 0, so something was committed (`run_hven_of_dark`), and the latch holds the last such
value (`run_out`). -/
theorem onlyCommittedFramesGlow : Obligations.OnlyCommittedFramesGlow := by
  unfold Obligations.OnlyCommittedFramesGlow
  intro sr0 out0 inputs n t h hdark k hglow
  obtain ⟨hon, hlit⟩ : t.hven = true ∧ t.out.getLsbD (wpos k).val = true := by simpa [State.glows] using hglow
  rw [run_out h] at hlit
  cases hlast : (displayHistory n { State.powerOn sr0 out0 with inputs := inputs }).getLast? with
  | none =>
    have hoff := run_hven_of_dark h hdark (List.getLast?_eq_none_iff.1 hlast)
    simp [hoff] at hon
  | some w => exact ⟨w, rfl, by simpa [hlast] using hlit⟩

/-! ### The schedule over one step -/

/-- No instruction reads or writes the schedule. -/
theorem exec_inputs {i : Instr} {s t : State} (h : exec i s = .next t) : t.inputs = s.inputs := by
  obtain ⟨-, -, -, -, -, -, hinputs, -⟩ := exec_frame h
  exact hinputs

/-- Every move but a micro-step uses up the first input. -/
theorem step_consumes {s t : State} (h : step s = .next t) (hn : s.nextMove ≠ .microStep) :
    ∃ x, s.inputs = x :: t.inputs := by
  rcases step_cases h with ⟨w, rest, i, hi, -, -, -, he⟩ | ⟨w, rest, e, hi, -, -, -, rfl⟩ | ⟨-, hn', -⟩ |
    ⟨rest, hi, -, rfl⟩ | ⟨l, rest, hi, -, rfl⟩ | ⟨rest, hi, -, -, rfl⟩
  · exact ⟨.word w, by rw [exec_inputs he, hi]⟩
  · exact ⟨.word w, by rw [rejectWord_inputs, hi]⟩
  · exact absurd hn' hn
  · exact ⟨.reset, by rw [applyReset_inputs, hi]⟩
  · exact ⟨.hven l, hi⟩
  · exact ⟨.wait, hi⟩

/-- A micro-step uses up the first input or none. -/
theorem inputsAfter_sublist (s : State) : s.inputsAfter.Sublist s.inputs := by
  unfold State.inputsAfter
  split
  · rename_i hi; rw [hi]
  · exact List.tail_sublist _

/-! ### Every schedule comes to its end -/

/-- The part of `movesLeft` that the schedule gives. -/
def inputMoves (l : List Input) : Nat := l.length + 194 * l.count (.word 0x0500#16)

/-- The part of `movesLeft` that a transmit in progress gives. -/
def State.txMoves (s : State) : Nat := if s.mode = .shift then 194 - s.txStep.toNat else 0

theorem movesLeft_eq (s : State) : s.movesLeft = inputMoves s.inputs + s.txMoves := rfl

theorem inputMoves_cons_lt (x : Input) (l : List Input) : inputMoves l < inputMoves (x :: l) := by
  simp only [inputMoves, List.length_cons, List.count_cons]
  omega

theorem inputMoves_transmit_cons (l : List Input) : inputMoves (.word 0x0500#16 :: l) = inputMoves l + 195 := by
  simp only [inputMoves, List.length_cons, List.count_cons_self]
  omega

theorem inputMoves_le_of_sublist {l m : List Input} (h : l.Sublist m) : inputMoves l ≤ inputMoves m := by
  have hlen := h.length_le
  have hcount := h.count_le (.word 0x0500#16)
  simp only [inputMoves]
  omega

theorem txMoves_outside {s : State} (hm : s.mode ≠ .shift) : s.txMoves = 0 := if_neg hm

theorem txMoves_shift {s : State} (hm : s.mode = .shift) : s.txMoves = 194 - s.txStep.toNat := if_pos hm

/-- A micro-step makes the transmit in progress shorter by one. -/
theorem microStep_txMoves {s t : State} (hm : s.mode = .shift) (h : microStep s = .next t) : t.txMoves < s.txMoves := by
  obtain ⟨hle, -⟩ := microStep_next h
  obtain ⟨hlast, hbefore⟩ := microStep_control h
  rw [txMoves_shift hm]
  by_cases hx : s.txStep.toNat = 193
  · obtain ⟨hmode, -⟩ := hlast hx
    rw [txMoves_outside (by simp [hmode])]
    omega
  · obtain ⟨hmode, htx⟩ := hbefore hx
    rw [txMoves_shift (hmode.trans hm)]
    omega

/-- Every step leaves fewer moves to come: an input is used up, or a micro-step is made; and the 194 moves of a transmit are paid
by its word. -/
theorem step_movesLeft_lt {s t : State} (h : step s = .next t) : t.movesLeft < s.movesLeft := by
  rw [movesLeft_eq, movesLeft_eq]
  cases step_pin h with
  | outside hm hs _ _ enters =>
    obtain ⟨x, hx⟩ := step_consumes h hs
    have hlt := inputMoves_cons_lt x t.inputs
    by_cases ht : t.mode = .shift
    · obtain ⟨-, hn⟩ := enters ht
      obtain ⟨-, rest, hi⟩ := (nextMove_accept_iff s _).1 hn
      obtain ⟨rfl, -⟩ := List.cons.inj (hx.symm.trans hi)
      have hpaid : inputMoves s.inputs = inputMoves t.inputs + 195 := hx ▸ inputMoves_transmit_cons t.inputs
      have htx := txMoves_shift ht
      omega
    · rw [hx, txMoves_outside ht]
      omega
  | supply l rest hm hn ht =>
    obtain ⟨x, hx⟩ := step_consumes h (by simp [hn])
    have hlt := inputMoves_cons_lt x t.inputs
    have htx : t.txMoves = s.txMoves := by subst ht; rfl
    rw [hx, htx]
    omega
  | microStep hm _ ht =>
    have hlt : t.txMoves < s.txMoves := microStep_txMoves (s := s.takeInput) hm ht
    obtain ⟨-, -, -, -, -, hinputs⟩ := microStep_frame ht
    have hle : inputMoves t.inputs ≤ inputMoves s.inputs := inputMoves_le_of_sublist (hinputs ▸ inputsAfter_sublist s)
    omega
  | reset rest hn ht =>
    obtain ⟨x, hx⟩ := step_consumes h (by simp [hn])
    have hlt := inputMoves_cons_lt x t.inputs
    have htx : t.txMoves = 0 := by subst ht; rfl
    rw [hx, htx]
    omega

/-- From a state of the invariant a run comes, within `movesLeft` steps, to where no move exists. -/
theorem run_reaches_end {s : State} (hs : s.Inv) :
    ∃ (n : Nat) (t : State), n ≤ s.movesLeft ∧ Sys2Proof.core.run n s = .next t ∧ t.inputs = [] ∧ t.mode ≠ .shift := by
  rcases step_isNext_or_done hs with ⟨u, hu⟩ | ⟨hi, hm⟩
  · have hlt := step_movesLeft_lt hu
    obtain ⟨n, t, hn, ht, hdone⟩ := run_reaches_end (hs.step hu)
    exact ⟨n + 1, t, by omega, (run_succ_next hu).trans ht, hdone⟩
  · exact ⟨0, s, Nat.zero_le _, rfl, hi, hm⟩
termination_by s.movesLeft

/-- Settles O50. -/
theorem finiteStreamReachesItsEnd : Obligations.FiniteStreamReachesItsEnd := by
  unfold Obligations.FiniteStreamReachesItsEnd
  intro s hs
  obtain ⟨n, t, hn, ht, hi, hm⟩ := run_reaches_end hs
  exact ⟨n, t, hn, ht, ended_or_stuck hi hm⟩

/-! ### Which streams leave a clean end -/

/-- List elements still due after an instruction, with `p` due before it (R103, R104). -/
def dueAfter (p : Nat) : Instr → Nat
  | .disableMany n => n.toNat
  | .seg _ => p - 1
  | .enable _ | .disableAll | .disable _ | .transmit => p

/-- A well-formed stream, instruction by instruction: each is read in the MODE in which it finds the machine (R82). -/
theorem streamWfFrom_cons_iff (p : Nat) (i : Instr) (l : List Instr) :
    streamWfFrom p (i :: l) = true ↔
      i.readMode = (if p = 0 then .idle else .list) ∧ streamWfFrom (dueAfter p i) l = true := by
  cases p <;> cases i <;> simp [streamWfFrom, Instr.readMode, dueAfter]

theorem streamWfFrom_nil_iff (p : Nat) : streamWfFrom p [] = true ↔ p = 0 := by
  cases p <;> simp [streamWfFrom]

/-- LISTREM counts the elements due (R18). -/
theorem exec_listRem {i : Instr} {s t : State} (hrem : i.readMode = .idle → s.listRem = 0) (h : exec i s = .next t) :
    t.listRem.toNat = dueAfter s.listRem.toNat i := by
  cases i <;> obtain rfl := Host.Outcome.next.inj h
  case disableMany n =>
    rw [loadList_listRem, hrem rfl, dueAfter]
    split
    · rename_i hz; rw [hz]
    · rfl
  case seg g => simp [listRemAfter_toNat, dueAfter]
  all_goals simp [dueAfter]

/-- MODE outside SHIFT, read from LISTREM (I-a). -/
theorem State.Inv.mode_eq {s : State} (hs : s.Inv) (hm : s.mode ≠ .shift) :
    s.mode = if s.listRem.toNat = 0 then .idle else .list := by
  have hlist := hs.list_iff
  cases hmode : s.mode with
  | idle => simp only [hmode, reduceCtorEq, false_iff] at hlist; rw [if_pos (by omega)]
  | list => simp only [hmode, true_iff] at hlist; rw [if_neg (by omega)]
  | shift => exact absurd hmode hm

/-- What is offered is the rest of a well-formed stream with operands in range, as far as LISTREM says it has come. -/
def State.GoodRest (s : State) : Prop :=
  ∃ l : List Instr, s.inputs = (encodeStream l).map .word ∧ streamWfFrom s.listRem.toNat l = true ∧
    ∀ i ∈ l, i.inRange = true

/-- The first word of a good rest decodes, in the present MODE, to its first instruction. -/
theorem goodRest_cons_iff {s : State} {w : CmdWord} {rest : List Input} (hs : s.Inv) (hm : s.mode ≠ .shift)
    (hi : s.inputs = .word w :: rest) :
    s.GoodRest ↔ ∃ i l, decode s.mode w = .ok i ∧ i.inRange = true ∧ rest = (encodeStream l).map .word ∧
      streamWfFrom (dueAfter s.listRem.toNat i) l = true ∧ ∀ j ∈ l, j.inRange = true := by
  constructor
  · rintro ⟨l, hl, hwf, hrange⟩
    cases l with
    | nil => simp [hi, encodeStream] at hl
    | cons i l =>
      obtain ⟨hw, hrest⟩ := List.cons.inj (hi.symm.trans hl)
      obtain rfl := Input.word.inj hw
      obtain ⟨hmode, hwf'⟩ := (streamWfFrom_cons_iff _ i l).1 hwf
      obtain ⟨hin, hrange'⟩ := List.forall_mem_cons.1 hrange
      refine ⟨i, l, ?_, hin, hrest, hwf', hrange'⟩
      rw [hs.mode_eq hm, ← hmode]
      exact decode_readMode_encode i
  · rintro ⟨i, l, hd, hin, rfl, hwf, hrange⟩
    obtain ⟨rfl, hmode⟩ := encode_of_decode hd
    exact ⟨i :: l, hi, (streamWfFrom_cons_iff _ i l).2 ⟨hmode.trans (hs.mode_eq hm), hwf⟩,
      List.forall_mem_cons.2 ⟨hin, hrange⟩⟩

/-- Accepting an instruction keeps, in both directions, being clean with a good rest to come. -/
theorem exec_keeps_cleanGood {s t : State} {w : CmdWord} {rest : List Input} {i : Instr} (hs : s.Inv) (hm : s.mode ≠ .shift)
    (hi : s.inputs = .word w :: rest) (hd : decode s.mode w = .ok i) (he : exec i { s with inputs := rest } = .next t) :
    s.Clean ∧ s.GoodRest ↔ t.Clean ∧ t.GoodRest := by
  have hclean : t.Clean ↔ s.Clean ∧ i.inRange = true := exec_clean_iff (s := { s with inputs := rest }) he
  have hinputs : t.inputs = rest := exec_inputs he
  obtain ⟨-, hmode⟩ := encode_of_decode hd
  have hrem : t.listRem.toNat = dueAfter s.listRem.toNat i :=
    exec_listRem (s := { s with inputs := rest }) (fun hidle => hs.listRem_zero (by simp [← hmode, hidle])) he
  rw [goodRest_cons_iff hs hm hi, hclean, State.GoodRest, hinputs, hrem]
  constructor
  · rintro ⟨hc, j, l, hj, hin, hgood⟩
    obtain rfl : i = j := Except.ok.inj (hd.symm.trans hj)
    exact ⟨⟨hc, hin⟩, l, hgood⟩
  · rintro ⟨⟨hc, hin⟩, l, hgood⟩
    exact ⟨hc, i, l, hd, hin, hgood⟩

/-- Under words alone a step is a micro-step, which leaves them offered, or an accept of the first. -/
theorem step_words_cases {s t : State} {stream : List CmdWord} (hi : s.inputs = stream.map .word) (h : step s = .next t) :
    microStep s = .next t ∨ s.mode ≠ .shift ∧ ∃ (w : CmdWord) (ws : List CmdWord), s.inputs = .word w :: ws.map .word ∧
      acceptWord w { s with inputs := ws.map .word } = .next t := by
  by_cases hm : s.mode = .shift
  · exact .inl ((step_words hi hm).symm.trans h)
  · cases stream with
    | nil => rw [step_nil hi hm] at h; cases h
    | cons w ws => exact .inr ⟨hm, w, ws, hi, (step_word hi hm).symm.trans h⟩

theorem acceptWord_inputs {w : CmdWord} {s t : State} (h : acceptWord w s = .next t) : t.inputs = s.inputs := by
  rcases acceptWord_next h with ⟨i, -, he⟩ | ⟨e, -, rfl⟩
  · exact exec_inputs he
  · exact rejectWord_inputs s

theorem step_words_only {s t : State} {stream : List CmdWord} (hi : s.inputs = stream.map .word) (h : step s = .next t) :
    ∃ ws : List CmdWord, t.inputs = ws.map .word := by
  rcases step_words_cases hi h with hmicro | ⟨-, w, ws, -, haccept⟩
  · obtain ⟨-, -, -, -, -, hinputs⟩ := microStep_frame hmicro
    exact ⟨stream, hinputs.trans hi⟩
  · exact ⟨ws, acceptWord_inputs haccept⟩

/-- Every step under words alone keeps, in both directions, being clean with a good rest to come: a word that is no instruction
leaves no state clean and is in no good rest. -/
theorem step_keeps_cleanGood {s t : State} {stream : List CmdWord} (hs : s.Inv) (hi : s.inputs = stream.map .word)
    (h : step s = .next t) : s.Clean ∧ s.GoodRest ↔ t.Clean ∧ t.GoodRest := by
  rcases step_words_cases hi h with hmicro | ⟨hm, w, ws, hi', haccept⟩
  · obtain ⟨-, hrem, -, -, -, hinputs⟩ := microStep_frame hmicro
    rw [microStep_clean_iff hmicro, State.GoodRest, State.GoodRest, hrem, hinputs]
  · rcases acceptWord_next haccept with ⟨i, hd, he⟩ | ⟨e, hd, rfl⟩
    · exact exec_keeps_cleanGood hs hm hi' hd he
    · have hbad : ¬s.GoodRest := by
        rw [goodRest_cons_iff hs hm hi']
        rintro ⟨i, l, hok, -⟩
        cases hd.symm.trans hok
      simp only [hbad, rejectWord_not_clean, and_false, false_and]

theorem run_keeps_cleanGood {n : Nat} {s t : State} {stream : List CmdWord} (hs : s.Inv) (hi : s.inputs = stream.map .word)
    (h : Sys2Proof.core.run n s = .next t) : t.Inv ∧ ((s.Clean ∧ s.GoodRest) ↔ (t.Clean ∧ t.GoodRest)) := by
  induction n generalizing s stream with
  | zero => obtain rfl := Host.Outcome.next.inj h; exact ⟨hs, Iff.rfl⟩
  | succ n ih =>
    obtain ⟨u, hu, hrest⟩ := run_succ_cases h
    obtain ⟨stream', hi'⟩ := step_words_only hi hu
    obtain ⟨ht, hiff⟩ := ih (hs.step hu) hi' hrest
    exact ⟨ht, (step_keeps_cleanGood hs hi hu).trans hiff⟩

/-- Where no move exists, the rest is good exactly when the run has ended: in LIST an element is still due. -/
theorem goodRest_iff_ended {t : State} (ht : t.Inv) (hi : t.inputs = []) (hm : t.mode ≠ .shift) : t.GoodRest ↔ t.Ended := by
  constructor
  · rintro ⟨l, hl, hwf, -⟩
    obtain rfl : l = [] := by simpa [hi, encodeStream] using hl
    have hdue := (streamWfFrom_nil_iff _).1 hwf
    exact ⟨hi, by rw [ht.mode_eq hm, if_pos hdue]⟩
  · rintro ⟨-, hidle⟩
    exact ⟨[], hi, (streamWfFrom_nil_iff _).2 (by simp [ht.listRem_zero, hidle]), nofun⟩

/-- In IDLE no element is due, so a good rest is a well-formed stream from its start. -/
theorem goodRest_idle_iff {s : State} {stream : List CmdWord} (hs : s.Inv) (hm : s.mode = .idle)
    (hi : s.inputs = stream.map .word) :
    s.GoodRest ↔ ∃ l : List Instr, stream = encodeStream l ∧ streamWf l = true ∧ ∀ i ∈ l, i.inRange = true := by
  have hinj : Function.Injective Input.word := fun _ _ => Input.word.inj
  rw [State.GoodRest, hi, hs.listRem_zero (by simp [hm])]
  simp only [(List.map_injective_iff.2 hinj).eq_iff]
  rfl

/-- Settles O51: being clean with a good rest to come is kept, in both directions, from the start to the end of the run. -/
theorem runEndsCleanExactlyOnAGoodStream : Obligations.RunEndsCleanExactlyOnAGoodStream := by
  unfold Obligations.RunEndsCleanExactlyOnAGoodStream
  intro s stream hs hclean hm hi
  obtain ⟨n, t, hn, hrun, hnone, hout⟩ := run_reaches_end hs
  obtain ⟨ht, hiff⟩ := run_keeps_cleanGood hs hi hrun
  refine ⟨n, t, hn, hrun, ended_or_stuck hnone hout, ?_⟩
  calc
    t.Ended ∧ t.Clean ↔ t.Clean ∧ t.GoodRest := by rw [goodRest_iff_ended ht hnone hout, and_comm]
    _ ↔ s.Clean ∧ s.GoodRest := hiff.symm
    _ ↔ s.GoodRest := and_iff_right hclean
    _ ↔ _ := goodRest_idle_iff hs hm hi

end Sys2Proof.Machine
end
